-- ==== Sys2Proof/Word.lean ====
section
/-!
DEFINITION. The two word types of the block: a word is 32 bits (00_scope.md R13), and the IMM field of
a command and the MAXBLK register are 16 bits wide (30_encoding.md R91, 10_state.md R43).
-/

namespace Sys2Proof

/-- A word: a register, a bus data word, a sample word or a storage word (00_scope.md R13). -/
abbrev Word := BitVec 32

/-- The width of the IMM field and of MAXBLK. -/
abbrev Half := BitVec 16

end Sys2Proof
end

