-- ==== Sys2Proof/Machine/Sample.lean ====
section
/-!
DEFINITION. Sample words as numbers (00_scope.md R13), complex vectors (R15), and the round-trip property
RT(EPS_RT) that the spec assumes of the transforms (42_transform.md R144). No meaning of an instruction
looks at the number a word stands for; these are what Config and claims are stated in.
-/

namespace Sys2Proof.Machine

open Sys2Proof

/-- A complex vector of C points, 2C words interleaved: word 2n is the real part of point n and word
2n+1 its imaginary part (00_scope.md R15). -/
abbrev Spectrum (log2c : Nat) := Vector Word (2 * 2 ^ log2c)

/-- Word `j` of a complex vector; 0 outside it. -/
def spectrumWord {k : Nat} (v : Spectrum k) (j : Nat) : Word := v.toList.getD j 0

/-- A frame as the FrameAssembler lays it out: even words the samples, odd words +0.0
(41_frame_assembler.md R131). -/
def interleave (k : Nat) (f : Nat → Word) : Spectrum k :=
  Vector.ofFn fun j => if j.val % 2 = 0 then f (j.val / 2) else 0

/-- Bits 30:23, the exponent (00_scope.md R13). -/
def exponentField (w : Word) : Nat := (w.extractLsb' 23 8).toNat
/-- Bits 22:0, the fraction (00_scope.md R13). -/
def fractionField (w : Word) : Nat := (w.extractLsb' 0 23).toNat

/-- Neither an infinity nor a NaN. -/
def isFinite (w : Word) : Bool := exponentField w != 255

/-- A nonzero value below the normal range. -/
def isSubnormal (w : Word) : Bool := exponentField w == 0 && fractionField w != 0

/-- The magnitude times 2^150: fraction with its hidden bit, shifted by the exponent. -/
def scaledMagnitude (w : Word) : Nat :=
  if exponentField w = 0 then fractionField w * 2
  else (2 ^ 23 + fractionField w) * 2 ^ exponentField w

/-- val(w): a binary32 word as a number (42_transform.md R142; the layout is general knowledge, 93 G1;
log 12). -/
def val (w : Word) : ℚ :=
  (if w.getLsbD 31 then -1 else 1) * (scaledMagnitude w : ℚ) / 2 ^ 150

/-- The sample words of R144, without the subnormal ones, which R147 puts outside the property. -/
def InRange (w : Word) : Prop := isFinite w = true ∧ isSubnormal w = false ∧ |val w| ≤ 1

/-- `w` is a finite word within `eps` of `q`. -/
def Near (eps : ℚ) (w : Word) (q : ℚ) : Prop := isFinite w = true ∧ |val w - q| < eps

/-- RT(EPS_RT) for C = 2^k of a pair of transforms (42_transform.md R144): of a frame of samples of
magnitude at most 1, the real words of INV(FWD(v)) are within `eps` of the samples and the imaginary
words within `eps` of 0. -/
def RoundTrip (k : Nat) (eps : ℚ) (fwd inv : Spectrum k → Spectrum k) : Prop :=
  ∀ f : Nat → Word, (∀ n < 2 ^ k, InRange (f n)) → ∀ n < 2 ^ k,
    Near eps (spectrumWord (inv (fwd (interleave k f))) (2 * n)) (val (f n)) ∧
    Near eps (spectrumWord (inv (fwd (interleave k f))) (2 * n + 1)) 0

/-- A transform pair over C = 2^k points and its EPS_RT (42_transform.md R140 to R144): two functions of
their argument alone, of which RT(EPS_RT) is assumed and nothing else. EPS_RT is 1e-4 for C = 512 and
open for any other C. -/
structure TransformPair (k : Nat) where
  fwd : Spectrum k → Spectrum k
  inv : Spectrum k → Spectrum k
  epsRt : ℚ
  epsRt_pos : 0 < epsRt
  epsRt_512 : k = 9 → epsRt = 1 / 10000
  roundTrip : RoundTrip k epsRt fwd inv

theorem val_zero : val 0 = 0 := by
  simp [val, scaledMagnitude, exponentField, fractionField]

theorem spectrumWord_interleave (k : Nat) (f : Nat → Word) {j : Nat} (h : j < 2 * 2 ^ k) :
    spectrumWord (interleave k f) j = if j % 2 = 0 then f (j / 2) else 0 := by
  simp [spectrumWord, interleave, List.getD, h]

/-- The property can be met, by transforms that change nothing; that such pairs exist is all that this
says. -/
def doNothingPair (k : Nat) : TransformPair k where
  fwd v := v
  inv v := v
  epsRt := 1 / 10000
  epsRt_pos := by norm_num
  epsRt_512 _ := rfl
  roundTrip f hf n hn := by
    rw [spectrumWord_interleave k f (show 2 * n < 2 * 2 ^ k by omega),
      spectrumWord_interleave k f (show 2 * n + 1 < 2 * 2 ^ k by omega),
      if_pos (Nat.mul_mod_right 2 n), if_neg (by omega), Nat.mul_div_cancel_left n (by decide)]
    refine ⟨⟨(hf n hn).1, ?_⟩, by decide, ?_⟩
    · norm_num
    · rw [val_zero]
      norm_num

end Sys2Proof.Machine
end

