-- ==== Sys2Proof/Config.lean ====
section
/-!
DEFINITION. What an implementation fixes when the block is built (00_scope.md R6 to R11) and the values
the spec leaves open: the transforms FWD and INV, a custom EDIT, and the draws of unspecified words.
The open values are opaque: no proof can see what they are, and of FWD and INV only the round-trip
property that the spec assumes is known.
-/

namespace Sys2Proof

open Sys2Proof.Machine

/-- Which EDIT the build has: the identity, the default, or another function fixed at build time
(42_transform.md R145; log 6). -/
inductive EditHook where
  /-- EDIT(ch, S) = S. -/
  | identity
  /-- EDIT is `Config.customEdit`, of which nothing is known. -/
  | custom
  deriving DecidableEq, Repr

/-- One parameter set (00_scope.md R6 to R10). A set outside the ranges cannot be built
(40_ringbuffer.md R113), so the ranges come with the data. -/
structure Build where
  /-- LOG2C, the exponent of the capacity (R6). -/
  log2c : Nat
  /-- NCH, the number of channels (R7). -/
  nch : Nat
  /-- HOP, the hop size (R8). -/
  hop : Nat
  /-- IOD, the depth of each channel's IO buffer (R9). -/
  iod : Nat
  /-- The spectral-edit hook (R10). -/
  edit : EditHook
  /-- The legal ranges of R6, R7, R8 and R9. -/
  legal : (1 ≤ log2c ∧ log2c ≤ 15) ∧ (1 ≤ nch ∧ nch ≤ 16) ∧ (1 ≤ hop ∧ hop ≤ 2 ^ log2c) ∧
    (1 ≤ iod ∧ iod ≤ 65535)
  deriving DecidableEq, Repr

/-- C, the ring capacity, frame size and transform size (00_scope.md R6). -/
def Build.cap (b : Build) : Nat := 2 ^ b.log2c

/-- The spec's default parameters (00_scope.md R6 to R10). -/
def Build.default : Build :=
  { log2c := 9, nch := 2, hop := 64, iod := 1024, edit := .identity, legal := by decide }

/-- The storage arrays (10_state.md R45 to R49). -/
inductive Arr where
  | ring | io | lin | cpx | spec
  deriving DecidableEq, Repr

/-- The TransformPair of a build of size C = 2^log2c, fixed at build time (42_transform.md R140). Nothing
is known of it but RT(EPS_RT) (R144, R147; log 5). The bracketed argument says that a pair can exist; it
says nothing of this one. -/
opaque Config.transformPair (log2c : Nat) [Inhabited (TransformPair log2c)] : TransformPair log2c

/-- FWD, the forward transform: a total function of its argument alone (42_transform.md R141). -/
def Config.fwd (log2c : Nat) : Spectrum log2c → Spectrum log2c :=
  (@Config.transformPair log2c ⟨doNothingPair log2c⟩).fwd

/-- INV, the inverse transform, under the same conditions (42_transform.md R143). -/
def Config.inv (log2c : Nat) : Spectrum log2c → Spectrum log2c :=
  (@Config.transformPair log2c ⟨doNothingPair log2c⟩).inv

/-- EPS_RT of C = 2^log2c (42_transform.md R144). -/
def Config.epsRt (log2c : Nat) : ℚ := (@Config.transformPair log2c ⟨doNothingPair log2c⟩).epsRt

/-- The EDIT of a build whose hook is not the identity (42_transform.md R145; log 6): any function of
the channel and the spectrum. -/
opaque Config.customEdit : (log2c : Nat) → Nat → Spectrum log2c → Spectrum log2c

/-- The word a read of an unspecified storage word returns: a free draw (20_memory.md R72; log 4), one
for each transaction (the epoch), array, channel and index. -/
opaque Config.freeWord : (epoch : Nat) → Arr → (ch idx : Nat) → Word

end Sys2Proof
end

