-- ==== Sys2Proof/Syntax.lean ====
section
/-!
DEFINITION. The instructions: one constructor for each row of spec/opcode_table.json, seven commands
(30_encoding.md R93) and two bus transactions (R100), with the operands that R92 assembles.
-/

namespace Sys2Proof

inductive Instr where
  /-- NOP (44_host_commands.md R190). -/
  | nop
  /-- SETUP: the announced channel count, CH field plus 1, and the announced maximum block size
  (44_host_commands.md R191). -/
  | setup (nch : Nat) (maxblk : Half)
  /-- BLOCK: the block length N (43_block_scheduler.md R160). -/
  | block (n : Half)
  /-- TEARDOWN (44_host_commands.md R195). -/
  | teardown
  /-- RING_WRITE: the channel and the ring position (40_ringbuffer.md R114). -/
  | ringWrite (ch : Nat) (pos : Half)
  /-- RING_READ: the channel and the ring position (40_ringbuffer.md R116). -/
  | ringRead (ch : Nat) (pos : Half)
  /-- CLRERR (44_host_commands.md R196). -/
  | clrerr
  /-- BUS_RD: an absolute byte address (45_bus.md R210). -/
  | busRd (addr : Word)
  /-- BUS_WR: an absolute byte address and the word written (45_bus.md R211). -/
  | busWr (addr data : Word)
  deriving DecidableEq, Repr

end Sys2Proof
end

