-- ==== Sys2Proof/WellFormed.lean ====
section
/-!
DEFINITION. Which instructions have an encoding on a given build: the ranges of 30_encoding.md R92 and
the value condition on CH of R96.
-/

namespace Sys2Proof

/-- The instruction has an encoding on build `b`. SETUP's announced count is a 4-bit field plus 1, and
every value of it decodes (R92, R96). RING_WRITE and RING_READ name an existing channel (R96). -/
def wellFormed (b : Build) : Instr → Bool
  | .setup nch _ => decide (1 ≤ nch) && decide (nch ≤ 16)
  | .ringWrite ch _ => decide (ch < b.nch)
  | .ringRead ch _ => decide (ch < b.nch)
  | .nop => true
  | .block _ => true
  | .teardown => true
  | .clrerr => true
  | .busRd _ => true
  | .busWr _ _ => true

end Sys2Proof
end

