-- ==== Sys2Proof/Decode.lean ====
section
/-!
DEFINITION. Decoding and encoding: the command word CMD32 (30_encoding.md R91 to R98) and the bus
transaction {WE, ADDR, DATA} (R100).
-/

namespace Sys2Proof

/-- A bus transaction (30_encoding.md R100): the 33-bit header {WE, ADDR} and the data phase. For
BUS_RD the data phase carries the answer, so the word here is not read. -/
structure Txn where
  header : BitVec 33
  data : Word
  deriving DecidableEq, Repr

/-- The two formats of the opcode table: a command word and a transaction. -/
inductive Encoding where
  | cmd32 (w : Word)
  | bus33 (header : BitVec 33) (data : Word)
  deriving DecidableEq, Repr

/-- The seven opcodes (30_encoding.md R93). -/
inductive Op where
  | nop | setup | block | teardown | ringWrite | ringRead | clrerr
  deriving DecidableEq, Repr

/-- The match of the command's row: OP, and zero elsewhere (30_encoding.md R94). -/
def Op.matchWord : Op → Word
  | .nop => 0x00000000
  | .setup => 0x10000000
  | .block => 0x20000000
  | .teardown => 0x30000000
  | .ringWrite => 0x40000000
  | .ringRead => 0x50000000
  | .clrerr => 0x60000000

/-- The mask of the command's row: OP and the must-be-zero fields (30_encoding.md R94). -/
def Op.maskWord : Op → Word
  | .nop => 0xFFFFFFFF
  | .setup => 0xF0FF0000
  | .block => 0xFFFF0000
  | .teardown => 0xFFFFFFFF
  | .ringWrite => 0xF0FF0000
  | .ringRead => 0xF0FF0000
  | .clrerr => 0xFFFFFFFF

/-- A legal command word, taken apart (30_encoding.md R91). -/
structure Command where
  op : Op
  ch : BitVec 4
  imm : Half
  deriving DecidableEq, Repr

/-- Why a word is ILLEGAL (30_encoding.md R97). The machine treats all three alike. -/
inductive Illegal where
  /-- OP is 0x7 to 0xF (R98). -/
  | reservedOpcode
  /-- A must-be-zero field is not zero (R94). -/
  | mustBeZero
  /-- The CH field of RING_WRITE or RING_READ is NCH or more (R96). -/
  | noSuchChannel
  deriving DecidableEq, Repr

/-- OP, bits 31:28 (30_encoding.md R91). -/
def opField (w : Word) : BitVec 4 := w.extractLsb' 28 4
/-- CH, bits 27:24. -/
def chField (w : Word) : BitVec 4 := w.extractLsb' 24 4
/-- RSV, bits 23:16. -/
def rsvField (w : Word) : BitVec 8 := w.extractLsb' 16 8
/-- IMM, bits 15:0. -/
def immField (w : Word) : Half := w.extractLsb' 0 16

/-- `d` if the must-be-zero fields of the word are zero. -/
def legalIf (zero : Bool) (d : Command) : Except Illegal Command :=
  if zero then .ok d else .error .mustBeZero

/-- A RING_WRITE or RING_READ word: RSV is zero and CH names a row (30_encoding.md R95, R96). -/
def decodeRing (b : Build) (op : Op) (w : Word) : Except Illegal Command :=
  if rsvField w = 0 then
    if (chField w).toNat < b.nch then .ok ⟨op, chField w, immField w⟩ else .error .noSuchChannel
  else .error .mustBeZero

/-- decode_cmd, total on every word (30_encoding.md R95). It reads no state but the parameter NCH. -/
def decodeCmd (b : Build) (w : Word) : Except Illegal Command :=
  match (opField w).toNat with
  | 0 => legalIf (w.extractLsb' 0 28 == 0) ⟨.nop, 0, 0⟩
  | 1 => legalIf (rsvField w == 0) ⟨.setup, chField w, immField w⟩
  | 2 => legalIf (w.extractLsb' 16 12 == 0) ⟨.block, 0, immField w⟩
  | 3 => legalIf (w.extractLsb' 0 28 == 0) ⟨.teardown, 0, 0⟩
  | 4 => decodeRing b .ringWrite w
  | 5 => decodeRing b .ringRead w
  | 6 => legalIf (w.extractLsb' 0 28 == 0) ⟨.clrerr, 0, 0⟩
  | _ => .error .reservedOpcode

/-- Operand assembly (30_encoding.md R92): every field is unsigned; SETUP announces CH plus 1. -/
def Command.toInstr (d : Command) : Instr :=
  match d.op with
  | .nop => .nop
  | .setup => .setup (d.ch.toNat + 1) d.imm
  | .block => .block d.imm
  | .teardown => .teardown
  | .ringWrite => .ringWrite d.ch.toNat d.imm
  | .ringRead => .ringRead d.ch.toNat d.imm
  | .clrerr => .clrerr

/-- WE, bit 32 of the header (30_encoding.md R100). -/
def Txn.we (t : Txn) : Bool := t.header.getLsbD 32
/-- ADDR, bits 31:0 of the header. -/
def Txn.addr (t : Txn) : Word := t.header.extractLsb' 0 32

/-- WE = 0 is BUS_RD and WE = 1 is BUS_WR (30_encoding.md R100). Every transaction decodes. -/
def decodeTxn (t : Txn) : Instr :=
  if t.we then .busWr t.addr t.data else .busRd t.addr

/-- The decoder over both formats. -/
def decode (b : Build) : Encoding → Except Illegal Instr
  | .cmd32 w => (decodeCmd b w).map Command.toInstr
  | .bus33 header data => .ok (decodeTxn ⟨header, data⟩)

/-- The CMD32 word with RSV zero (30_encoding.md R91). -/
def cmdWord (op ch : BitVec 4) (imm : Half) : Word := op ++ ch ++ 0#8 ++ imm

/-- The words of a well-formed instruction (30_encoding.md R93, R100, R101). The data phase of a
BUS_RD is the block's to drive; it is encoded as 0. -/
def encode : Instr → Encoding
  | .nop => .cmd32 (cmdWord 0 0 0)
  | .setup nch maxblk => .cmd32 (cmdWord 1 (BitVec.ofNat 4 (nch - 1)) maxblk)
  | .block n => .cmd32 (cmdWord 2 0 n)
  | .teardown => .cmd32 (cmdWord 3 0 0)
  | .ringWrite ch pos => .cmd32 (cmdWord 4 (BitVec.ofNat 4 ch) pos)
  | .ringRead ch pos => .cmd32 (cmdWord 5 (BitVec.ofNat 4 ch) pos)
  | .clrerr => .cmd32 (cmdWord 6 0 0)
  | .busRd addr => .bus33 (0#1 ++ addr) 0
  | .busWr addr data => .bus33 (1#1 ++ addr) data

/-- The address of CMD (10_state.md R21). -/
def cmdAddr : Word := 0x10

/-- How an encoded instruction reaches the block: a transaction as it is, a command word as the data
of a write to CMD (30_encoding.md R90). -/
def Encoding.toTxn : Encoding → Txn
  | .cmd32 w => ⟨1#1 ++ cmdAddr, w⟩
  | .bus33 header data => ⟨header, data⟩

/-- The instruction whose bits are `w`, numbered as spec/opcode_table.json numbers them (log 16): a row
of at most 32 bits is a command word; a wider row is a transaction, its header in bits 32:0 and its
data phase, which the table does not number, in the word after the header's five whole bytes. -/
def tableEncoding (nbits w : Nat) : Encoding :=
  if nbits ≤ 32 then .cmd32 (BitVec.ofNat 32 w)
  else .bus33 (BitVec.ofNat 33 w) (BitVec.ofNat 32 (w / 2 ^ 40))

/-- The instruction the decoder reads from the bits `w` of a row of the table, on the default build. -/
def decodeTableWord (nbits w : Nat) : Option Instr :=
  (decode Build.default (tableEncoding nbits w)).toOption

end Sys2Proof
end

