-- ==== Sys2Proof/Machine/State.lean ====
section
/-!
DEFINITION. The state of the block (10_state.md R20): the registers of R21, the storage arrays of R45
to R49, the build constants, and three fields of the model's own (the host's pending events, the words
BUS_RD has returned, and the epoch of the free draws).
-/

namespace Sys2Proof.Machine

open Sys2Proof

/-- STATUS.LIFE (10_state.md R25). The value 3 is never produced and has no constructor (93 U12). -/
inductive Life where
  | idle | streaming | cfgerr
  deriving DecidableEq, Repr

/-- One storage array: `fill` is what a word not listed reads as (`none`: unspecified, R72), and `cells`
lists (word number, word) pairs, the word number being channel * 65536 + index, which is addr[23:2] of
the array's window (20_memory.md R62; log 7, log 8). -/
structure Memory where
  fill : Option Word
  cells : List (Nat × Word)
  deriving DecidableEq, Repr

/-- The canonical form: word numbers strictly rising, and no entry equal to what an unlisted word
reads as. -/
def Memory.wf (m : Memory) : Bool :=
  decide (m.cells.Pairwise fun x y => x.1 < y.1) && m.cells.all fun c => m.fill != some c.2

/-- Every word unspecified: the contents after reset (70_reset_and_hazards.md R261). -/
def Memory.unspecified : Memory := ⟨none, []⟩

/-- What the host can do to the block (00_scope.md R17, 70_reset_and_hazards.md R260). -/
inductive Event where
  /-- A bus transaction. -/
  | txn (t : Txn)
  /-- A pulse on the reset input. -/
  | reset
  deriving DecidableEq, Repr

/-- The reasons for which the machine stops with a fault: none. The block raises no trap and no event
transfers control (60_exceptions.md R230); every error is a sticky bit and the machine goes on
(R231; log 13). Nobody raises it, so it is neither safe nor unsafe. -/
inductive Fault where
  deriving DecidableEq, Repr

/-- The reasons for which an instruction is refused. -/
inductive Refusal where
  /-- An instruction that has no meaning yet. Raised by an arm of `exec` only; safe, since the machine
  stops there. No arm raises it: every row of the opcode table has its meaning. -/
  | notModelled (mnemonic : String)
  deriving DecidableEq, Repr

structure State where
  /-- The build constants (10_state.md R20 c); no step changes them. -/
  build : Build
  /-- STATUS.LIFE (R25). -/
  life : Life
  /-- STATUS.FIRED (R26). -/
  fired : Bool
  /-- STATUS[13:8], the sticky error bits (R28 to R33): bit i here is STATUS bit i + 8. -/
  errs : BitVec 6
  /-- ARG (R36). -/
  arg : Word
  /-- RESULT (R37). -/
  result : Word
  /-- WP, the shared write pointer (R38). -/
  wp : Word
  /-- HOPCNT, the hop counter (R39). -/
  hopcnt : Word
  /-- HIST, the history counter (R40). -/
  hist : Word
  /-- FRAMECNT (R41). -/
  framecnt : Word
  /-- SRATE (R42). -/
  srate : Word
  /-- MAXBLK (R43). -/
  maxblk : Half
  /-- ring[ch][k] (R45). -/
  ring : Memory
  /-- io[ch][i] (R46). -/
  io : Memory
  /-- lin[ch][n] (R47). -/
  lin : Memory
  /-- cpx[ch][j] (R48). -/
  cpx : Memory
  /-- spec[ch][j] (R49). -/
  spec : Memory
  /-- The model's own: the words BUS_RD has returned, oldest first (00_scope.md R18; log 3). -/
  returned : List Word
  /-- The model's own: the host's events not yet taken, oldest first (log 2). -/
  pending : List Event
  /-- The model's own: how many events have been taken; the free draws read it (log 4). -/
  epoch : Nat
  deriving DecidableEq, Repr

/-- What an instruction answers. -/
abbrev Result := Host.Outcome State Fault Refusal

/-- Build `b` right after reset, with no event pending (70_reset_and_hazards.md R260, R261). -/
def State.resetOf (b : Build) : State :=
  { build := b, life := .idle, fired := false, errs := 0, arg := 0, result := 0, wp := 0, hopcnt := 0,
    hist := 0, framecnt := 0, srate := 0, maxblk := 0, ring := .unspecified, io := .unspecified,
    lin := .unspecified, cpx := .unspecified, spec := .unspecified, returned := [], pending := [],
    epoch := 0 }

/-- The machine right after reset: the spec's default build (00_scope.md R6 to R10; log 1). -/
def State.reset : State := State.resetOf Build.default

end Sys2Proof.Machine
end

