-- ==== Sys2Proof/Machine/Ops.lean ====
section
/-!
DEFINITION. The named operations over the storage arrays and the registers: reading and writing one
storage word, replacing a row, the masked ring primitives (40_ringbuffer.md R110 to R112), and raising
an error, which is all that an exception is on this block (60_exceptions.md R230, R231).
-/

namespace Sys2Proof.Machine

open Sys2Proof

/-- The word number of index `idx` of row `ch`: addr[23:2] of its window address (20_memory.md R62). -/
def cellKey (ch idx : Nat) : Nat := ch * 65536 + idx

/-- The word listed under `key`, if one is. -/
def findCell (key : Nat) : List (Nat × Word) → Option Word
  | [] => none
  | (k, v) :: rest => if k = key then some v else findCell key rest

/-- The list with `v` under `key`, in rising order. -/
def insertCell (key : Nat) (v : Word) : List (Nat × Word) → List (Nat × Word)
  | [] => [(key, v)]
  | (k, w) :: rest =>
    if key < k then (key, v) :: (k, w) :: rest
    else if key = k then (key, v) :: rest
    else (k, w) :: insertCell key v rest

/-- The list with nothing under `key`. -/
def removeCell (key : Nat) (cells : List (Nat × Word)) : List (Nat × Word) :=
  cells.filter fun c => c.1 != key

/-- What the word under `key` holds: `none` where it is unspecified (20_memory.md R72). -/
def Memory.get (m : Memory) (key : Nat) : Option Word := (findCell key m.cells).or m.fill

/-- The array with `v` under `key`, in canonical form again. -/
def Memory.set (m : Memory) (key : Nat) (v : Word) : Memory :=
  if m.fill = some v then { m with cells := removeCell key m.cells }
  else { m with cells := insertCell key v m.cells }

/-- Every word `v`: what SETUP makes of an array (44_host_commands.md R193). -/
def Memory.filled (v : Word) : Memory := ⟨some v, []⟩

/-- The storage array of that name. -/
def State.arr (s : State) : Arr → Memory
  | .ring => s.ring
  | .io => s.io
  | .lin => s.lin
  | .cpx => s.cpx
  | .spec => s.spec

/-- The state with that storage array replaced. -/
def State.setArr (s : State) (a : Arr) (m : Memory) : State :=
  match a with
  | .ring => { s with ring := m }
  | .io => { s with io := m }
  | .lin => { s with lin := m }
  | .cpx => { s with cpx := m }
  | .spec => { s with spec := m }

/-- What a storage word holds: `none` where it is unspecified. -/
def State.peek (s : State) (a : Arr) (ch idx : Nat) : Option Word := (s.arr a).get (cellKey ch idx)

/-- The word a read of a storage word gives: the word it holds, or a free draw where it is unspecified
(20_memory.md R72; log 4). -/
def State.read (s : State) (a : Arr) (ch idx : Nat) : Word :=
  (s.peek a ch idx).getD (Config.freeWord s.epoch a ch idx)

/-- `arr[ch][idx] <- v` (00_scope.md R12). -/
def State.write (s : State) (a : Arr) (ch idx : Nat) (v : Word) : State :=
  s.setArr a ((s.arr a).set (cellKey ch idx) v)

/-- `arr[ch] <- V` (00_scope.md R12): the `n` words of the row become `f 0`, ..., `f (n-1)`, written in
ascending order. -/
def State.writeRow (s : State) (a : Arr) (ch n : Nat) (f : Nat → Word) : State :=
  (List.range n).foldl (fun t j => t.write a ch j (f j)) s

/-- mask(p) = p & (C - 1), the slot a ring position selects (00_scope.md R14, 40_ringbuffer.md R110). -/
def mask (b : Build) (p : Nat) : Nat := p &&& (b.cap - 1)

/-- RingWrite(ch, v, p): ring[ch][mask(p)] <- v (40_ringbuffer.md R111). -/
def State.ringWrite (s : State) (ch : Nat) (v : Word) (p : Nat) : State :=
  s.write .ring ch (mask s.build p) v

/-- RingRead(ch, p): ring[ch][mask(p)] (40_ringbuffer.md R112). -/
def State.ringRead (s : State) (ch p : Nat) : Word := s.read .ring ch (mask s.build p)

/-- The error causes (60_exceptions.md R232). -/
inductive Err where
  | illegal | state | blklen | bus | cfgChan | cfgBlkmax
  deriving DecidableEq, Repr

/-- The cause's bit of STATUS[13:8]: its code less 8 (60_exceptions.md R232). -/
def Err.bit : Err → Nat
  | .illegal => 0
  | .state => 1
  | .blklen => 2
  | .bus => 3
  | .cfgChan => 4
  | .cfgBlkmax => 5

/-- `raise Err(NAME)`: the sticky bit is set and nothing else changes (60_exceptions.md R231, R236). The
block saves nothing, changes no mode and goes nowhere (R237); there is no return (R238). -/
def State.raise (s : State) (e : Err) : State :=
  { s with errs := s.errs ||| (1#6 <<< e.bit) }

end Sys2Proof.Machine
end

