-- ==== Sys2Proof/Machine/Operands.lean ====
section
/-!
DEFINITION. The one operand form of the bus, an absolute byte address, and what it selects: a register,
a window word, or nothing (20_memory.md R61 to R63).
-/

namespace Sys2Proof.Machine

open Sys2Proof

/-- The control and status registers (10_state.md R21). -/
inductive Csr where
  | id | param | param2 | status | cmd | arg | result | wp | hopcnt | hist | framecnt | srate | maxblk
  deriving DecidableEq, Repr

/-- The register's offset from address 0 (10_state.md R21). -/
def Csr.offset : Csr → Nat
  | .id => 0x00
  | .param => 0x04
  | .param2 => 0x08
  | .status => 0x0C
  | .cmd => 0x10
  | .arg => 0x14
  | .result => 0x18
  | .wp => 0x1C
  | .hopcnt => 0x20
  | .hist => 0x24
  | .framecnt => 0x28
  | .srate => 0x2C
  | .maxblk => 0x30

/-- The register at an offset of the CSR region; every other offset is unmapped (10_state.md R44). -/
def Csr.ofOffset : Nat → Option Csr
  | 0x00 => some .id
  | 0x04 => some .param
  | 0x08 => some .param2
  | 0x0C => some .status
  | 0x10 => some .cmd
  | 0x14 => some .arg
  | 0x18 => some .result
  | 0x1C => some .wp
  | 0x20 => some .hopcnt
  | 0x24 => some .hist
  | 0x28 => some .framecnt
  | 0x2C => some .srate
  | 0x30 => some .maxblk
  | _ => none

/-- The windows (20_memory.md R61). The ring has none (R60). -/
inductive Window where
  | io | lin | cpx | spec
  deriving DecidableEq, Repr

/-- The array a window shows. -/
def Window.arr : Window → Arr
  | .io => .io
  | .lin => .lin
  | .cpx => .cpx
  | .spec => .spec

/-- The window's value of addr[31:24] (20_memory.md R62). -/
def Window.region : Window → Nat
  | .io => 0x01
  | .lin => 0x02
  | .cpx => 0x03
  | .spec => 0x04

/-- The window of a region number. -/
def Window.ofRegion : Nat → Option Window
  | 0x01 => some .io
  | 0x02 => some .lin
  | 0x03 => some .cpx
  | 0x04 => some .spec
  | _ => none

/-- depth(region): how many words a row of the window has (20_memory.md R62). -/
def Window.depth (b : Build) : Window → Nat
  | .io => b.iod
  | .lin => b.cap
  | .cpx => 2 * b.cap
  | .spec => 2 * b.cap

/-- The address of word `idx` of row `ch` (20_memory.md R62). -/
def Window.addr (w : Window) (ch idx : Nat) : Word :=
  BitVec.ofNat 32 (w.region * 0x1000000 + ch * 0x40000 + 4 * idx)

/-- What an address selects (20_memory.md R63). -/
inductive Target where
  | csr (r : Csr)
  | win (w : Window) (ch idx : Nat)
  | misaligned
  | unmapped
  deriving DecidableEq, Repr

/-- addr[31:24]. -/
def regionField (addr : Word) : BitVec 8 := addr.extractLsb' 24 8
/-- addr[23:18], the channel of a window address. -/
def rowField (addr : Word) : BitVec 6 := addr.extractLsb' 18 6
/-- addr[17:2], the word index of a window address. -/
def indexField (addr : Word) : BitVec 16 := addr.extractLsb' 2 16

/-- The window word an address selects, if the row and the index exist (20_memory.md R62). -/
def windowTarget (b : Build) (w : Window) (addr : Word) : Target :=
  if (rowField addr).toNat < b.nch ∧ (indexField addr).toNat < w.depth b then
    .win w (rowField addr).toNat (indexField addr).toNat
  else .unmapped

/-- The register an address of the CSR region selects. -/
def csrTarget (addr : Word) : Target :=
  match Csr.ofOffset (addr.extractLsb' 0 24).toNat with
  | some r => .csr r
  | none => .unmapped

/-- decode(addr) (20_memory.md R63). -/
def decodeAddr (b : Build) (addr : Word) : Target :=
  if addr.extractLsb' 0 2 ≠ 0 then .misaligned
  else if regionField addr = 0 then csrTarget addr
  else
    match Window.ofRegion (regionField addr).toNat with
    | some w => windowTarget b w addr
    | none => .unmapped

end Sys2Proof.Machine
end

