-- ==== Sys2Proof/Machine/Flags.lean ====
section
/-!
DEFINITION. STATUS and the LIFE check: the word a read of STATUS gives (10_state.md R25 to R34) and
which commands a lifecycle state allows (60_exceptions.md R233).
-/

namespace Sys2Proof.Machine

open Sys2Proof

/-- The value of STATUS[1:0] (10_state.md R25). -/
def Life.code : Life → BitVec 2
  | .idle => 0
  | .streaming => 1
  | .cfgerr => 2

/-- STATUS.PRIMED, computed at every read as HIST > C (10_state.md R27). -/
def State.primed (s : State) : Bool := decide (s.build.cap < s.hist.toNat)

/-- The STATUS word: [13:8] the errors, [3] PRIMED, [2] FIRED, [1:0] LIFE, the rest 0 (10_state.md R34). -/
def State.statusWord (s : State) : Word :=
  0#18 ++ s.errs ++ 0#4 ++ BitVec.ofBool s.primed ++ BitVec.ofBool s.fired ++ s.life.code

/-- Whether an error bit is set. -/
def State.hasErr (s : State) (e : Err) : Bool := s.errs.getLsbD e.bit

/-- allowed(op, LIFE) (60_exceptions.md R233). -/
def allowed : Op → Life → Bool
  | .nop, _ => true
  | .setup, .idle => true
  | .setup, .streaming => false
  | .setup, .cfgerr => true
  | .block, l => l == .streaming
  | .teardown, _ => true
  | .ringWrite, l => l == .streaming
  | .ringRead, l => l == .streaming
  | .clrerr, _ => true

/-- A decoded command: the LIFE check, then the command (30_encoding.md R90, 60_exceptions.md R234). -/
def State.issue (s : State) (op : Op) (perform : State → State) : State :=
  if allowed op s.life then perform s else s.raise .state

end Sys2Proof.Machine
end

