-- ==== Sys2Proof/Machine/Frame.lean ====
section
/-!
DEFINITION. The FrameAssembler (41_frame_assembler.md R130 to R136). No window function is applied
(R136).
-/

namespace Sys2Proof.Machine

open Sys2Proof

/-- The linear part: lin[ch][n] <- ring[ch][(cur + n) & (C-1)] (R130). -/
def State.assembleLinear (s : State) (ch cur : Nat) : State :=
  s.writeRow .lin ch s.build.cap fun n => s.ringRead ch (cur + n)

/-- The complex part: even words are the frame bit for bit, odd words +0.0 (R131). -/
def State.assembleComplex (s : State) (ch : Nat) : State :=
  s.writeRow .cpx ch (2 * s.build.cap) fun j => if j % 2 = 0 then s.read .lin ch (j / 2) else 0

/-- FrameAssemble(ch, cur) (R130, R131). -/
def State.frameAssemble (s : State) (ch cur : Nat) : State :=
  (s.assembleLinear ch cur).assembleComplex ch

end Sys2Proof.Machine
end

