-- ==== Sys2Proof/Machine/Transform.lean ====
section
/-!
DEFINITION. The SpectralTransformStage (42_transform.md R140 to R148).
-/

namespace Sys2Proof.Machine

open Sys2Proof

/-- EDIT(ch, S): the identity by default, or the build's own function (R145; log 6). -/
def edit (b : Build) (ch : Nat) (v : Spectrum b.log2c) : Spectrum b.log2c :=
  match b.edit with
  | .identity => v
  | .custom => Config.customEdit b.log2c ch v

/-- The row cpx[ch] as a complex vector (00_scope.md R15). -/
def State.cpxVector (s : State) (ch : Nat) : Spectrum s.build.log2c :=
  Vector.ofFn fun j => s.read .cpx ch j.val

/-- The spectrum passed to the inverse transform: EDIT(ch, FWD(cpx[ch])) (R148). -/
def State.spectrum (s : State) (ch : Nat) : Spectrum s.build.log2c :=
  edit s.build ch (Config.fwd s.build.log2c (s.cpxVector ch))

/-- `arr[ch] <- V` for a complex vector: 2C words. -/
def State.writeVector {k : Nat} (s : State) (a : Arr) (ch : Nat) (v : Spectrum k) : State :=
  s.writeRow a ch (2 * 2 ^ k) (spectrumWord v)

/-- Transform(ch): spec[ch] takes the edited spectrum and cpx[ch] its inverse transform (R148). -/
def State.transform (s : State) (ch : Nat) : State :=
  (s.writeVector .spec ch (s.spectrum ch)).writeVector .cpx ch
    (Config.inv s.build.log2c (s.spectrum ch))

end Sys2Proof.Machine
end

