-- ==== Sys2Proof/Machine/Block.lean ====
section
/-!
DEFINITION. The BlockScheduler: BLOCK (43_block_scheduler.md R160 to R171).
-/

namespace Sys2Proof.Machine

open Sys2Proof

/-- Sample `i` of the block goes, for every channel, to position WP + i (R162). -/
def State.ingestSample (s : State) (i : Nat) : State :=
  (List.range s.build.nch).foldl
    (fun t ch => t.ringWrite ch (t.read .io ch i) (t.wp.toNat + i)) s

/-- Ingestion: the `n` samples in ascending order (R162). -/
def State.ingest (s : State) (n : Nat) : State :=
  (List.range n).foldl State.ingestSample s

/-- The pointer and the counters after `n` samples: WP modulo C, HOPCNT saturating at 2^32 - 1 and HIST
at C + 1 (R163). -/
def State.advance (s : State) (n : Nat) : State :=
  { s with
    wp := BitVec.ofNat 32 (mask s.build (s.wp.toNat + n))
    hopcnt := BitVec.ofNat 32 (min (s.hopcnt.toNat + n) 0xFFFFFFFF)
    hist := BitVec.ofNat 32 (min (s.hist.toNat + n) (s.build.cap + 1)) }

/-- The frame guard: HOPCNT >= HOP and HIST > C (R164). -/
def State.fires (s : State) : Bool :=
  decide (s.build.hop ≤ s.hopcnt.toNat) && decide (s.build.cap < s.hist.toNat)

/-- One channel of FRAME_READY: FrameAssemble(ch, WP), then Transform(ch) (R165). -/
def State.frameChannel (s : State) (ch : Nat) : State :=
  (s.frameAssemble ch s.wp.toNat).transform ch

/-- FRAME_READY over the channels in ascending order (R165). -/
def State.frameReady (s : State) : State :=
  (List.range s.build.nch).foldl State.frameChannel s

/-- What follows ingestion: a firing block assembles and transforms every channel, assigns 0 to HOPCNT
and counts the frame; FIRED says which it was (R164 to R167). -/
def State.finishBlock (s : State) : State :=
  if s.fires then
    { s.frameReady with hopcnt := 0, framecnt := s.framecnt + 1, fired := true }
  else { s with fired := false }

/-- BLOCK(N) in STREAMING: the length check, then the block (R160, R161). io is not written (R168). -/
def State.runBlock (s : State) (n : Half) : State :=
  if s.maxblk.toNat < n.toNat then s.raise .blklen
  else ((s.ingest n.toNat).advance n.toNat).finishBlock

/-- BLOCK (R160). -/
def execBlock (n : Half) (s : State) : Result := .next (s.issue .block fun t => t.runBlock n)

end Sys2Proof.Machine
end

