-- ==== Sys2Proof/Machine/Lifecycle.lean ====
section
/-!
DEFINITION. The host lifecycle commands: NOP, SETUP, TEARDOWN and CLRERR (44_host_commands.md R190 to
R197).
-/

namespace Sys2Proof.Machine

open Sys2Proof

/-- NOP does nothing (R190). -/
def execNop (s : State) : Result := .next (s.issue .nop fun t => t)

/-- The announced channel count is not the hardware's (R192). -/
def badChan (b : Build) (nch : Nat) : Bool := nch != b.nch

/-- The announced maximum block size is 0 or exceeds IOD (R192). -/
def badBlkmax (b : Build) (maxblk : Half) : Bool :=
  maxblk.toNat == 0 || decide (b.iod < maxblk.toNat)

/-- Set the error bit when the condition holds. -/
def State.raiseIf (s : State) (c : Bool) (e : Err) : State := if c then s.raise e else s

/-- A rejected SETUP: the configuration bits that apply, LIFE to CFGERR, and nothing else (R192). -/
def State.rejectSetup (s : State) (chan blkmax : Bool) : State :=
  { ((s.raiseIf chan .cfgChan).raiseIf blkmax .cfgBlkmax) with life := .cfgerr }

/-- A successful SETUP: all channel storage and the counters cleared, SRATE and MAXBLK announced, LIFE
to STREAMING (R191, R193). -/
def State.acceptSetup (s : State) (maxblk : Half) : State :=
  { s with
    ring := .filled 0, io := .filled 0, lin := .filled 0, cpx := .filled 0, spec := .filled 0
    wp := 0, hopcnt := 0, hist := 0, framecnt := 0, fired := false
    srate := s.arg, maxblk := maxblk, life := .streaming }

/-- SETUP(nch, maxblk) in IDLE or CFGERR (R191). -/
def State.runSetup (s : State) (nch : Nat) (maxblk : Half) : State :=
  if badChan s.build nch || badBlkmax s.build maxblk then
    s.rejectSetup (badChan s.build nch) (badBlkmax s.build maxblk)
  else s.acceptSetup maxblk

/-- SETUP (R191 to R194). -/
def execSetup (nch : Nat) (maxblk : Half) (s : State) : Result :=
  .next (s.issue .setup fun t => t.runSetup nch maxblk)

/-- TEARDOWN: LIFE to IDLE, everything else kept (R195). -/
def execTeardown (s : State) : Result := .next (s.issue .teardown fun t => { t with life := .idle })

/-- CLRERR: STATUS[13:8] to 0 (R196). -/
def execClrerr (s : State) : Result := .next (s.issue .clrerr fun t => { t with errs := 0 })

end Sys2Proof.Machine
end

