-- ==== Sys2Proof/Machine/Ring.lean ====
section
/-!
DEFINITION. The RingBuffer commands (40_ringbuffer.md R114 to R116).
-/

namespace Sys2Proof.Machine

open Sys2Proof

/-- A ring command on a row: no such row is ERR_ILLEGAL, which outranks the LIFE check
(30_encoding.md R96, 60_exceptions.md R234; log 9). -/
def State.issueRing (s : State) (op : Op) (ch : Nat) (perform : State → State) : State :=
  if ch < s.build.nch then s.issue op perform else s.raise .illegal

/-- RING_WRITE: ring[ch][pos & (C-1)] <- ARG (R114). -/
def execRingWrite (ch : Nat) (pos : Half) (s : State) : Result :=
  .next (s.issueRing .ringWrite ch fun t => t.ringWrite ch t.arg pos.toNat)

/-- RING_READ: RESULT <- ring[ch][pos & (C-1)] (R116). -/
def execRingRead (ch : Nat) (pos : Half) (s : State) : Result :=
  .next (s.issueRing .ringRead ch fun t => { t with result := t.ringRead ch pos.toNat })

end Sys2Proof.Machine
end

