-- ==== Sys2Proof/Machine/Bus.lean ====
section
/-!
DEFINITION. The bus: MemRead and MemWrite (20_memory.md R64 to R67), the command a write to CMD issues
(30_encoding.md R90), and the two transactions (45_bus.md R210, R211).
-/

namespace Sys2Proof.Machine

open Sys2Proof

/-- ID (10_state.md R22). -/
def idWord : Word := 0x5A4C0007

/-- PARAM: [23:8] HOP, [7:4] NCH - 1, [3:0] LOG2C (10_state.md R23). -/
def paramWord (b : Build) : Word :=
  0#8 ++ BitVec.ofNat 16 b.hop ++ BitVec.ofNat 4 (b.nch - 1) ++ BitVec.ofNat 4 b.log2c

/-- PARAM2: [15:0] IOD (10_state.md R24). -/
def param2Word (b : Build) : Word := 0#16 ++ BitVec.ofNat 16 b.iod

/-- The value a bus read of a register gives (10_state.md R22 to R43). CMD reads 0 (R35); the bits of WP
above LOG2C-1 and of MAXBLK above 15 read 0 (R38, R43; log 10). -/
def State.readCsr (s : State) : Csr → Word
  | .id => idWord
  | .param => paramWord s.build
  | .param2 => param2Word s.build
  | .status => s.statusWord
  | .cmd => 0
  | .arg => s.arg
  | .result => s.result
  | .wp => BitVec.ofNat 32 (mask s.build s.wp.toNat)
  | .hopcnt => s.hopcnt
  | .hist => s.hist
  | .framecnt => s.framecnt
  | .srate => s.srate
  | .maxblk => 0#16 ++ s.maxblk

/-- MemRead(addr, 4): the word returned and the state it leaves (20_memory.md R66). -/
def memRead (addr : Word) (s : State) : Word × State :=
  match decodeAddr s.build addr with
  | .misaligned => (0, s.raise .bus)
  | .unmapped => (0, s.raise .bus)
  | .csr r => (s.readCsr r, s)
  | .win w ch idx => (s.read w.arr ch idx, s)

/-- The word returned to the host joins what it has observed (00_scope.md R18; log 3). -/
def State.answer (s : State) (v : Word) : State := { s with returned := s.returned ++ [v] }

/-- perform(d): the decoded command's own meaning, its LIFE check included (30_encoding.md R90). -/
def perform (d : Command) (s : State) : Result :=
  match d.op with
  | .nop => execNop s
  | .setup => execSetup (d.ch.toNat + 1) d.imm s
  | .block => execBlock d.imm s
  | .teardown => execTeardown s
  | .ringWrite => execRingWrite d.ch.toNat d.imm s
  | .ringRead => execRingRead d.ch.toNat d.imm s
  | .clrerr => execClrerr s

/-- execute_command(w): an ILLEGAL word sets ERR_ILLEGAL and changes nothing else (30_encoding.md R90,
R97); a legal one is performed. -/
def executeCommand (w : Word) (s : State) : Result :=
  match decodeCmd s.build w with
  | .error _ => .next (s.raise .illegal)
  | .ok d => perform d s

/-- A write to a register: CMD issues a command, ARG is stored, every other register is read-only
(20_memory.md R67). -/
def writeCsr (r : Csr) (v : Word) (s : State) : Result :=
  match r with
  | .cmd => executeCommand v s
  | .arg => .next { s with arg := v }
  | .id | .param | .param2 | .status | .result | .wp | .hopcnt | .hist | .framecnt | .srate
  | .maxblk => .next (s.raise .bus)

/-- A write to a window word: IO is stored, LIN, CPX and SPEC are read-only (20_memory.md R67). -/
def writeWindow (w : Window) (ch idx : Nat) (v : Word) (s : State) : State :=
  match w with
  | .io => s.write .io ch idx v
  | .lin | .cpx | .spec => s.raise .bus

/-- MemWrite(addr, 4, v) (20_memory.md R67). -/
def memWrite (addr v : Word) (s : State) : Result :=
  match decodeAddr s.build addr with
  | .misaligned => .next (s.raise .bus)
  | .unmapped => .next (s.raise .bus)
  | .csr r => writeCsr r v s
  | .win w ch idx => .next (writeWindow w ch idx v s)

/-- BUS_RD (45_bus.md R210). -/
def execBusRd (addr : Word) (s : State) : Result :=
  .next ((memRead addr s).2.answer (memRead addr s).1)

/-- BUS_WR (45_bus.md R211). -/
def execBusWr (addr data : Word) (s : State) : Result := memWrite addr data s

end Sys2Proof.Machine
end

