-- ==== Sys2Proof/Machine/Dispatch.lean ====
section
/-!
DEFINITION. One arm for each instruction, each calling its meaning.
-/

namespace Sys2Proof.Machine

open Sys2Proof

def exec (i : Instr) (s : State) : Host.Outcome State Fault Refusal :=
  match i with
  -- 44_host_commands.md
  | .nop => Sys2Proof.Machine.execNop s
  | .setup nch maxblk => Sys2Proof.Machine.execSetup nch maxblk s
  -- 43_block_scheduler.md
  | .block n => Sys2Proof.Machine.execBlock n s
  -- 44_host_commands.md
  | .teardown => Sys2Proof.Machine.execTeardown s
  -- 40_ringbuffer.md
  | .ringWrite ch pos => Sys2Proof.Machine.execRingWrite ch pos s
  | .ringRead ch pos => Sys2Proof.Machine.execRingRead ch pos s
  -- 44_host_commands.md
  | .clrerr => Sys2Proof.Machine.execClrerr s
  -- 45_bus.md
  | .busRd addr => Sys2Proof.Machine.execBusRd addr s
  | .busWr addr data => Sys2Proof.Machine.execBusWr addr data s

end Sys2Proof.Machine
end

