-- ==== Sys2Proof/Machine/Events.lean ====
section
/-!
DEFINITION. The host's events: taking the oldest one, the reset input (70_reset_and_hazards.md R260),
and putting a transaction first.
-/

namespace Sys2Proof.Machine

open Sys2Proof

/-- The state once the oldest event is taken, `rest` being the others; the draws of the event that runs
are those of a new epoch (log 4). -/
def State.take (s : State) (rest : List Event) : State :=
  { s with pending := rest, epoch := s.epoch + 1 }

/-- The reset input: every register at its reset value and every storage word unspecified, whatever the
block was doing (70_reset_and_hazards.md R260, R261; log 11). The build, the host's later events and what
the host has seen are not the block's to reset. -/
def State.resetNow (s : State) : State :=
  { State.resetOf s.build with returned := s.returned, pending := s.pending, epoch := s.epoch }

/-- The state with a transaction before all the host's other events. -/
def State.placeFirst (s : State) (t : Txn) : State := { s with pending := .txn t :: s.pending }

end Sys2Proof.Machine
end

