-- ==== Sys2Proof/Machine/Step.lean ====
section
/-!
DEFINITION. One step: the block takes the host's oldest event and completes it (20_memory.md R69, R70).
With nothing pending it holds its state (60_exceptions.md R250).
-/

namespace Sys2Proof.Machine

open Sys2Proof

def step (s : State) : Host.Outcome State Fault Refusal :=
  match s.pending with
  | [] => .next s
  | .txn t :: rest => exec (decodeTxn t) (s.take rest)
  | .reset :: rest => .next (s.take rest).resetNow

/-- `s` with the instruction of these bits as the host's next transaction (log 2, log 16): a command word
as the data of a write to CMD, a transaction as it is. -/
def State.withFetchWord (s : State) (nbits w : Nat) : State :=
  s.placeFirst (tableEncoding nbits w).toTxn

end Sys2Proof.Machine
end

