-- ==== Sys2Proof/Machine/Reference.lean ====
section
/-!
DEFINITION. The reference meaning of FWD and INV within a tolerance (42_transform.md R142, R143). The
tolerances are open, so these are propositions that a claim may take as a premise; nothing assumes them
and no meaning of an instruction uses them (log 5, log 17).
-/

namespace Sys2Proof.Machine

open Sys2Proof

/-- `z` is the complex sequence a vector holds (42_transform.md R142). -/
def Reads {k : Nat} (v : Spectrum k) (z : Nat → ℂ) : Prop :=
  ∀ n < 2 ^ k, z n = ⟨(val (spectrumWord v (2 * n)) : ℝ), (val (spectrumWord v (2 * n + 1)) : ℝ)⟩

/-- `Z` is the unscaled forward transform of `z` over C points, negative exponent (R142). -/
def IsForwardDft (C : Nat) (z Z : Nat → ℂ) : Prop :=
  ∀ k < C, Z k = ∑ n ∈ Finset.range C, z n * Complex.exp (-(2 * Real.pi * Complex.I * k * n / C))

/-- `z` is the inverse transform of `Z` over C points, positive exponent and the whole 1/C (R143). -/
def IsInverseDft (C : Nat) (Z z : Nat → ℂ) : Prop :=
  ∀ n < C, z n = (1 / C) * ∑ k ∈ Finset.range C, Z k * Complex.exp (2 * Real.pi * Complex.I * k * n / C)

/-- `x` and `y` differ by at most `tol` in each part (log 17). -/
def Within (tol : ℝ) (x y : ℂ) : Prop := |x.re - y.re| ≤ tol ∧ |x.im - y.im| ≤ tol

/-- Every word of a vector is finite, not subnormal, and of magnitude at most `bound`. -/
def Bounded {k : Nat} (bound : ℚ) (v : Spectrum k) : Prop :=
  ∀ j < 2 * 2 ^ k, isFinite (spectrumWord v j) = true ∧ isSubnormal (spectrumWord v j) = false ∧
    |val (spectrumWord v j)| ≤ bound

/-- Every word of a vector is finite, so that each stands for a number. -/
def AllFinite {k : Nat} (v : Spectrum k) : Prop := ∀ j < 2 * 2 ^ k, isFinite (spectrumWord v j) = true

/-- FWD comes within `tol` of the reference, on vectors whose words have magnitude at most 1
(42_transform.md R142). DEDUCED (log 17): the range is the one R147 leaves to FWD. DESIGN CHOICE
(log 17): `tol`, the open TOL_FWD, is measured part by part, and vectors with imaginary words count too. -/
def FwdWithin (k : Nat) (tol : ℝ) : Prop :=
  ∀ (v : Spectrum k) (z Z x : Nat → ℂ), Bounded 1 v → Reads v z → IsForwardDft (2 ^ k) z Z →
    Reads (Config.fwd k v) x → AllFinite (Config.fwd k v) ∧ ∀ m < 2 ^ k, Within tol (x m) (Z m)

/-- INV comes within `tol` of the reference, on spectra whose words have magnitude at most `bound`
(42_transform.md R143). DESIGN CHOICE (log 17): the spec gives INV alone neither a range nor a tolerance,
so both are arguments, and a claim that takes this as a premise names them; a bound of C takes in the
exact unscaled spectrum of every in-range frame. Every spectrum within the bound counts, also one that an
EDIT could give, which R147 leaves undefined. -/
def InvWithin (k : Nat) (bound : ℚ) (tol : ℝ) : Prop :=
  ∀ (v : Spectrum k) (Z z x : Nat → ℂ), Bounded bound v → Reads v Z → IsInverseDft (2 ^ k) Z z →
    Reads (Config.inv k v) x → AllFinite (Config.inv k v) ∧ ∀ n < 2 ^ k, Within tol (x n) (z n)

end Sys2Proof.Machine
end

