-- ==== Sys2Proof/Safety.lean ====
section
/-!
DEFINITION. What claims say of runs: the invariants of 10_state.md R53, the canonical form of the
storage, storage specified while streaming (70_reset_and_hazards.md R261), the well-behaved host (R264),
the words that are ILLEGAL (30_encoding.md R97), what two states share about one channel (20_memory.md
R76), the stream a channel has ingested (40_ringbuffer.md R117, 41_frame_assembler.md R134) and how
long it is (43_block_scheduler.md R172).
-/

namespace Sys2Proof.Machine

open Sys2Proof

/-- The invariants (a) to (f) of 10_state.md R53. -/
structure Inv (s : State) : Prop where
  /-- (a) -/
  wp_lt : s.wp.toNat < s.build.cap
  /-- (b) -/
  hist_le : s.hist.toNat ≤ s.build.cap + 1
  /-- (c) -/
  unprimed : s.life = .streaming → s.hist.toNat ≤ s.build.cap → s.hopcnt = s.hist
  /-- (d) -/
  primed : s.life = .streaming → s.build.cap < s.hist.toNat → s.hopcnt.toNat < s.build.hop
  /-- (e) -/
  maxblk_le : s.maxblk.toNat ≤ s.build.iod
  /-- (f) -/
  aligned : s.hist.toNat ≤ s.build.cap → s.hist.toNat % s.build.cap = s.wp.toNat

/-- Every storage array is in canonical form. -/
def Canonical (s : State) : Prop := ∀ a, (s.arr a).wf = true

/-- While streaming, no storage word is unspecified (70_reset_and_hazards.md R261). -/
def Specified (s : State) : Prop := s.life = .streaming → ∀ a, (s.arr a).fill = some 0

/-- The command words that are ILLEGAL, by their fields (30_encoding.md R97, R98): a reserved opcode, a
must-be-zero field that is not zero, or a RING command on a channel that does not exist. -/
def IllegalWord (b : Build) (w : Word) : Prop :=
  7 ≤ w.toNat / 2 ^ 28 ∨
  (w.toNat / 2 ^ 28 = 0 ∨ w.toNat / 2 ^ 28 = 3 ∨ w.toNat / 2 ^ 28 = 6) ∧ w.toNat % 2 ^ 28 ≠ 0 ∨
  w.toNat / 2 ^ 28 = 2 ∧ w.toNat / 2 ^ 16 % 2 ^ 12 ≠ 0 ∨
  (w.toNat / 2 ^ 28 = 1 ∨ w.toNat / 2 ^ 28 = 4 ∨ w.toNat / 2 ^ 28 = 5) ∧ w.toNat / 2 ^ 16 % 2 ^ 8 ≠ 0 ∨
  (w.toNat / 2 ^ 28 = 4 ∨ w.toNat / 2 ^ 28 = 5) ∧ b.nch ≤ w.toNat / 2 ^ 24 % 2 ^ 4

/-- The host's next event is a pulse on the reset input. -/
def resetsNext (s : State) : Bool :=
  match s.pending with
  | .reset :: _ => true
  | .txn _ :: _ => false
  | [] => false

/-- The opcode of the command that the host's next event issues, if it issues a legal one. -/
def opNext (s : State) : Option Op :=
  match s.pending with
  | .txn t :: _ =>
    if t.we && t.addr == cmdAddr then
      match decodeCmd s.build t.data with
      | .ok d => some d.op
      | .error _ => none
    else none
  | .reset :: _ => none
  | [] => none

/-- What two states share about one channel: everything that a command's effect on that channel's rows
may depend on (20_memory.md R76). The rows of other channels, RESULT, the errors and what the host has
seen may differ. -/
structure AgreeOn (ch : Nat) (s t : State) : Prop where
  build : s.build = t.build
  life : s.life = t.life
  fired : s.fired = t.fired
  arg : s.arg = t.arg
  wp : s.wp = t.wp
  hopcnt : s.hopcnt = t.hopcnt
  hist : s.hist = t.hist
  framecnt : s.framecnt = t.framecnt
  srate : s.srate = t.srate
  maxblk : s.maxblk = t.maxblk
  epoch : s.epoch = t.epoch
  /-- The channel's row of every storage array; an index is 16 bits wide (20_memory.md R62). -/
  rows : ∀ a k, k < 65536 → s.peek a ch k = t.peek a ch k

/-- The state after `k` blocks of `n` samples, each as BLOCK leaves it in STREAMING. -/
def State.afterBlocks (s : State) (n : Half) : Nat → State
  | 0 => s
  | k + 1 => (s.afterBlocks n k).runBlock n

/-- No error bit is set (70_reset_and_hazards.md R264). -/
def ErrorFree (s : State) : Prop := s.errs = 0

/-- A command within the limits its rule sets (70_reset_and_hazards.md R263). -/
def withinLimits (s : State) (d : Command) : Bool :=
  match d.op with
  | .setup => !badChan s.build (d.ch.toNat + 1) && !badBlkmax s.build d.imm
  | .block => decide (d.imm.toNat ≤ s.maxblk.toNat)
  | .nop | .teardown | .ringWrite | .ringRead | .clrerr => true

/-- A legal command word, allowed in the present lifecycle state and within its limits. -/
def wellBehavedCmd (s : State) (w : Word) : Bool :=
  match decodeCmd s.build w with
  | .error _ => false
  | .ok d => allowed d.op s.life && withinLimits s d

/-- A mapped address with the right access for a read: every register but CMD, and every window word. -/
def readable (b : Build) (addr : Word) : Bool :=
  match decodeAddr b addr with
  | .csr r => r != .cmd
  | .win _ _ _ => true
  | .misaligned => false
  | .unmapped => false

/-- A mapped address with the right access for a write of `v`: CMD with a well-behaved command, ARG, and
the IO words. -/
def writable (s : State) (addr v : Word) : Bool :=
  match decodeAddr s.build addr with
  | .csr r => if r = .cmd then wellBehavedCmd s v else r == .arg
  | .win w _ _ => w == .io
  | .misaligned => false
  | .unmapped => false

/-- What a well-behaved host does in a state (70_reset_and_hazards.md R264). -/
def wellBehaved (s : State) : Event → Bool
  | .reset => true
  | .txn t => if t.we then writable s t.addr t.data else readable s.build t.addr

/-- The samples that BLOCK takes from a channel: io[ch][0..n-1] (43_block_scheduler.md R160). -/
def State.samples (s : State) (ch n : Nat) : List Word := (List.range n).map fun i => s.read .io ch i

/-- The C words of a channel's ring from WP on, oldest first (40_ringbuffer.md R117). -/
def State.history (s : State) (ch : Nat) : List Word :=
  (List.range s.build.cap).map fun m => s.ringRead ch (s.wp.toNat + m)

/-- A SETUP that the lifecycle state and the configuration checks let through. -/
def acceptsSetup (s : State) (nch : Nat) (maxblk : Half) : Bool :=
  allowed .setup s.life && !badChan s.build nch && !badBlkmax s.build maxblk

/-- A BLOCK that the lifecycle state and the length check let through. -/
def acceptsBlock (s : State) (n : Half) : Bool :=
  allowed .block s.life && decide (n.toNat ≤ s.maxblk.toNat)

/-- The instructions that neither ingest nor touch the ring in this state: all but a RING_WRITE, a SETUP
or a BLOCK that is let through. A write to CMD counts as the command it issues, so it is not listed. -/
def quiet (s : State) : Instr → Bool
  | .setup nch maxblk => !acceptsSetup s nch maxblk
  | .block n => !acceptsBlock s n
  | .ringWrite ch _ => !(allowed .ringWrite s.life && decide (ch < s.build.nch))
  | .busWr addr _ => addr != cmdAddr
  | .nop | .teardown | .ringRead _ _ | .clrerr | .busRd _ => true

/-- `stream ch` is what channel `ch` has ingested since the last successful SETUP, oldest first, no
RING_WRITE having happened since (40_ringbuffer.md R117). -/
inductive Streamed : State → (Nat → List Word) → Prop where
  | setup {s t nch maxblk} : acceptsSetup s nch maxblk = true → exec (.setup nch maxblk) s = .next t →
      Streamed t fun _ => []
  | block {s t stream n} : Streamed s stream → acceptsBlock s n = true → exec (.block n) s = .next t →
      Streamed t fun ch => stream ch ++ s.samples ch n.toNat
  | quiet {s t stream i} : Streamed s stream → quiet s i = true → exec i s = .next t →
      Streamed t stream
  /-- The host's next event is taken; what it runs is one of the other cases. -/
  | take {s stream} (rest : List Event) : Streamed s stream → Streamed (s.take rest) stream

/-- `k` samples per channel have been ingested since the last successful SETUP (43_block_scheduler.md
R172), whatever else has happened since. -/
inductive Ingested : State → Nat → Prop where
  | setup {s t nch maxblk} : acceptsSetup s nch maxblk = true → exec (.setup nch maxblk) s = .next t →
      Ingested t 0
  | block {s t k n} : Ingested s k → acceptsBlock s n = true → exec (.block n) s = .next t →
      Ingested t (k + n.toNat)
  | quiet {s t k i} : Ingested s k → quiet s i = true → exec i s = .next t → Ingested t k
  | ringWrite {s t k ch pos} : Ingested s k → exec (.ringWrite ch pos) s = .next t → Ingested t k
  /-- The host's next event is taken; what it runs is one of the other cases. -/
  | take {s k} (rest : List Event) : Ingested s k → Ingested (s.take rest) k

end Sys2Proof.Machine
end

