-- ==== Sys2Proof/Certificates/Slice0/Obligations.lean ====
section
/-!
DEFINITION. The statements for the provers. Each says which rules of spec/ it formalises; where a clause
is the model's own choice, the docstring names the log entry.
-/

open Sys2Proof Sys2Proof.Machine

/-! ## Encoding -/

/-- Decoding an encoded well-formed instruction gives it back, on every build, with every operand
(30_encoding.md R91 to R96, R100). -/
def Obligations.DecodeOfEncode : Prop :=
  ∀ (b : Build) (i : Instr), wellFormed b i = true → decode b (encode i) = .ok i

/-- Every encoding that decodes is the encoding of what it decodes to: a command word in full, a
transaction but for the data phase of a read, which the block drives (30_encoding.md R95, R100). -/
def Obligations.EncodeOfDecode : Prop :=
  (∀ (b : Build) (w : Word) (i : Instr), decode b (.cmd32 w) = .ok i →
    wellFormed b i = true ∧ encode i = .cmd32 w) ∧
  (∀ (b : Build) (h : BitVec 33) (d : Word) (i : Instr), decode b (.bus33 h d) = .ok i →
    wellFormed b i = true ∧ encode i = .bus33 h (if h.getLsbD 32 then d else 0))

/-- A word decodes to a command exactly when it matches the command's row, RING_WRITE and RING_READ
adding the value condition on CH (30_encoding.md R94). -/
def Obligations.DecodeFollowsMatchAndMask : Prop :=
  ∀ (b : Build) (w : Word) (op : Op),
    (∃ d, decodeCmd b w = .ok d ∧ d.op = op) ↔
      w &&& op.maskWord = op.matchWord ∧
        (op = .ringWrite ∨ op = .ringRead → w.toNat / 2 ^ 24 % 2 ^ 4 < b.nch)

/-- The operands a command word carries: unsigned, zero-extended fields of the word, SETUP announcing CH
plus 1 (30_encoding.md R92). -/
def Obligations.OperandsAreUnsignedFields : Prop :=
  ∀ (b : Build) (w : Word),
    (∀ nch maxblk, decode b (.cmd32 w) = .ok (.setup nch maxblk) →
      nch = w.toNat / 2 ^ 24 % 16 + 1 ∧ maxblk.toNat = w.toNat % 65536) ∧
    (∀ n, decode b (.cmd32 w) = .ok (.block n) → n.toNat = w.toNat % 65536) ∧
    (∀ ch pos, decode b (.cmd32 w) = .ok (.ringWrite ch pos) →
      ch = w.toNat / 2 ^ 24 % 16 ∧ pos.toNat = w.toNat % 65536) ∧
    (∀ ch pos, decode b (.cmd32 w) = .ok (.ringRead ch pos) →
      ch = w.toNat / 2 ^ 24 % 16 ∧ pos.toNat = w.toNat % 65536)

/-- Every word is a legal command or ILLEGAL, and an ILLEGAL word written to CMD sets ERR_ILLEGAL and
changes nothing else (30_encoding.md R97, R98). -/
def Obligations.IllegalWordsSetOnlyErrIllegal : Prop :=
  ∀ (s : State) (w : Word),
    (IllegalWord s.build w ↔ ∀ d, decodeCmd s.build w ≠ .ok d) ∧
    (IllegalWord s.build w → exec (.busWr cmdAddr w) s = .next { s with errs := s.errs ||| 1 })

/-- A few words of 30_encoding.md R103, written out from the encoding, decode to what the table there
says, on the default build (log 1); and two transaction headers of R100. That a header comes in five
bytes, and that the data of the BUS_WR is 0 because no bits from 40 on are given, is the model's choice:
log 16 (DESIGN CHOICE). -/
def Obligations.SampleWordsDecode : Prop :=
  decodeTableWord 32 0x11000040 = some (.setup 2 64) ∧
  decodeTableWord 32 0x20000040 = some (.block 64) ∧
  decodeTableWord 32 0x41000205 = some (.ringWrite 1 517) ∧
  decodeTableWord 32 0x50000005 = some (.ringRead 0 5) ∧
  decodeTableWord 32 0x60000000 = some .clrerr ∧
  decodeTableWord 32 0x21000040 = none ∧
  decodeTableWord 32 0x42000000 = none ∧
  decodeTableWord 32 0x70000000 = none ∧
  decodeTableWord 40 0x00000000C = some (.busRd 0xC) ∧
  decodeTableWord 40 0x101040014 = some (.busWr 0x01040014 0)

/-! ## The step -/

/-- A step runs the decoded instruction: when the host's oldest event is the transaction of an encoding
that decodes to `i` (a command word reaching the block as a write to CMD), the step is `exec i` once the
event is taken (20_memory.md R69, R70, 30_encoding.md R90). -/
def Obligations.StepRunsDecodedInstruction : Prop :=
  ∀ (s : State) (e : Encoding) (rest : List Event) (i : Instr),
    s.pending = .txn e.toTxn :: rest → decode s.build e = .ok i → step s = exec i (s.take rest)

/-- The same for the instruction of a row's bits placed first (the placing is the model's: log 2, 16). -/
def Obligations.StepRunsPlacedWord : Prop :=
  ∀ (s : State) (nbits w : Nat) (i : Instr),
    decode s.build (tableEncoding nbits w) = .ok i →
      step (s.withFetchWord nbits w) = exec i (s.take s.pending)

/-- With nothing pending the block holds its state (60_exceptions.md R250). -/
def Obligations.IdleStepHoldsState : Prop :=
  ∀ s : State, s.pending = [] → step s = .next s

/-- Every instruction and every step ends in a next state: nothing traps and nothing is refused
(60_exceptions.md R230, R231). -/
def Obligations.EveryStepCompletes : Prop :=
  (∀ (i : Instr) (s : State), ∃ t, exec i s = .next t) ∧ ∀ s : State, ∃ t, step s = .next t

/-- The reset input: every register reads as 70_reset_and_hazards.md R260 says, every storage word is
unspecified (R261), and the build is kept. The host's later events and what it has seen are not the
block's (log 2, 3). -/
def Obligations.ResetInputResets : Prop :=
  ∀ (s : State) (rest : List Event), s.pending = .reset :: rest →
    ∃ t, step s = .next t ∧ t.build = s.build ∧ t.pending = rest ∧ t.returned = s.returned ∧
      t.readCsr .id = 0x5A4C0007 ∧ t.readCsr .param = paramWord s.build ∧
      t.readCsr .param2 = param2Word s.build ∧
      (∀ r, r ≠ .id → r ≠ .param → r ≠ .param2 → t.readCsr r = 0) ∧
      t.life = .idle ∧ t.fired = false ∧ t.primed = false ∧ t.errs = 0 ∧
      ∀ a ch k, t.peek a ch k = none

/-- The state right after reset, of every build, and the default build's constants
(70_reset_and_hazards.md R260, R261). -/
def Obligations.ResetStateReadsAsGiven : Prop :=
  (∀ (b : Build) (r : Csr), (State.resetOf b).readCsr r =
    if r = .id then 0x5A4C0007 else if r = .param then paramWord b
    else if r = .param2 then param2Word b else 0) ∧
  (∀ (b : Build) a ch k, (State.resetOf b).peek a ch k = none) ∧
  State.reset.readCsr .param = 0x00004019 ∧ State.reset.readCsr .param2 = 0x00000400

/-! ## Lifecycle commands -/

/-- NOP leaves every register and storage word unchanged (44_host_commands.md R190). -/
def Obligations.NopChangesNothing : Prop :=
  ∀ s : State, exec .nop s = .next s

/-- A successful SETUP clears all channel storage, zeroes WP, HOPCNT, HIST, FRAMECNT and FIRED, stores
ARG and the announced size, and goes to STREAMING; nothing else changes (44_host_commands.md R191,
R193). -/
def Obligations.SetupClearsAndStreams : Prop :=
  ∀ (s : State) (nch : Nat) (maxblk : Half), s.life ≠ .streaming → nch = s.build.nch →
    1 ≤ maxblk.toNat → maxblk.toNat ≤ s.build.iod →
    ∃ t, exec (.setup nch maxblk) s = .next t ∧
      t = { s with
        ring := t.ring, io := t.io, lin := t.lin, cpx := t.cpx, spec := t.spec
        wp := 0, hopcnt := 0, hist := 0, framecnt := 0, fired := false
        srate := s.arg, maxblk := maxblk, life := .streaming } ∧
      ∀ a ch k, t.peek a ch k = some 0

/-- A rejected SETUP sets the configuration bits that apply and LIFE to CFGERR and changes nothing else;
in CFGERR the block refuses BLOCK, RING_WRITE and RING_READ (44_host_commands.md R192). -/
def Obligations.SetupRejectedIsCfgerr : Prop :=
  ∀ (s : State) (nch : Nat) (maxblk : Half), s.life ≠ .streaming →
    (nch ≠ s.build.nch ∨ maxblk.toNat = 0 ∨ s.build.iod < maxblk.toNat) →
    ∃ t, exec (.setup nch maxblk) s = .next t ∧ t = { s with life := .cfgerr, errs := t.errs } ∧
      (t.hasErr .cfgChan = true ↔ s.hasErr .cfgChan = true ∨ nch ≠ s.build.nch) ∧
      (t.hasErr .cfgBlkmax = true ↔
        s.hasErr .cfgBlkmax = true ∨ maxblk.toNat = 0 ∨ s.build.iod < maxblk.toNat) ∧
      (∀ e, e ≠ .cfgChan → e ≠ .cfgBlkmax → t.hasErr e = s.hasErr e) ∧
      (∀ n, exec (.block n) t = .next { t with errs := t.errs ||| 2 }) ∧
      (∀ ch pos, ch < s.build.nch →
        exec (.ringWrite ch pos) t = .next { t with errs := t.errs ||| 2 } ∧
        exec (.ringRead ch pos) t = .next { t with errs := t.errs ||| 2 })

/-- SETUP while streaming is refused with ERR_STATE, and the stream continues unchanged
(44_host_commands.md R194). -/
def Obligations.SetupWhileStreamingIsRefused : Prop :=
  ∀ (s : State) (nch : Nat) (maxblk : Half), s.life = .streaming →
    exec (.setup nch maxblk) s = .next { s with errs := s.errs ||| 2 }

/-- TEARDOWN sets LIFE to IDLE from every state and changes nothing else (44_host_commands.md R195). -/
def Obligations.TeardownGoesIdle : Prop :=
  ∀ s : State, exec .teardown s = .next { s with life := .idle }

/-- CLRERR clears the six error bits and changes nothing else; STATUS keeps its other bits
(44_host_commands.md R196). -/
def Obligations.ClrerrClearsErrors : Prop :=
  ∀ s : State, ∃ t, exec .clrerr s = .next t ∧ t = { s with errs := 0 } ∧
    t.statusWord = s.statusWord &&& 0xFFFFC0FF ∧ ∀ e, t.hasErr e = false

/-! ## The ring -/

/-- mask(p) is p & (C - 1), which equals p mod C, so two positions select one slot exactly when they
differ by a multiple of C (00_scope.md R14, 40_ringbuffer.md R110). -/
def Obligations.MaskIsModulo : Prop :=
  ∀ (b : Build) (p q : Nat), mask b p = p &&& (b.cap - 1) ∧ mask b p = p % b.cap ∧
    mask b p < b.cap ∧ (mask b p = mask b q ↔ p % b.cap = q % b.cap)

/-- RING_WRITE stores ARG in one slot of one row and changes nothing else: no pointer, no counter, no
other storage word (40_ringbuffer.md R111, R114, R115). -/
def Obligations.RingWriteStoresOneWord : Prop :=
  ∀ (s : State) (ch : Nat) (pos : Half), s.life = .streaming → ch < s.build.nch →
    ∃ t, exec (.ringWrite ch pos) s = .next t ∧ t = { s with ring := t.ring } ∧
      t.peek .ring ch (mask s.build pos.toNat) = some s.arg ∧
      ∀ ch' k, k < 65536 → ¬ (ch' = ch ∧ k = mask s.build pos.toNat) →
        t.peek .ring ch' k = s.peek .ring ch' k

/-- RING_READ puts the word of the slot in RESULT and changes nothing else; an unspecified slot, which
only a state no run reaches can show while streaming, gives some word (40_ringbuffer.md R112, R116; the
draw is the model's: log 4). -/
def Obligations.RingReadReturnsSlot : Prop :=
  ∀ (s : State) (ch : Nat) (pos : Half), s.life = .streaming → ch < s.build.nch →
    ∃ v, exec (.ringRead ch pos) s = .next { s with result := v } ∧
      ∀ u, s.peek .ring ch (pos.toNat % s.build.cap) = some u → v = u

/-- A RING_READ after a RING_WRITE: ARG where the positions select the same slot of the same row, and
otherwise the word that was there (40_ringbuffer.md R111, R112). -/
def Obligations.RingReadAfterRingWrite : Prop :=
  ∀ (s : State) (ch ch' : Nat) (p q : Half), s.life = .streaming → ch < s.build.nch →
    ch' < s.build.nch → ∃ t u, exec (.ringWrite ch p) s = .next t ∧ exec (.ringRead ch' q) t = .next u ∧
      u.result = if ch' = ch ∧ q.toNat % s.build.cap = p.toNat % s.build.cap then s.arg
        else s.ringRead ch' q.toNat

/-- A RING command on a channel that does not exist is ERR_ILLEGAL in every lifecycle state, and nothing
else (40_ringbuffer.md R114, R116; that such a term has this meaning is the model's: log 9). -/
def Obligations.RingChannelOutOfRangeIsIllegal : Prop :=
  ∀ (s : State) (ch : Nat) (pos : Half), s.build.nch ≤ ch →
    exec (.ringWrite ch pos) s = .next { s with errs := s.errs ||| 1 } ∧
    exec (.ringRead ch pos) s = .next { s with errs := s.errs ||| 1 }

/-! ## BLOCK -/

/-- A BLOCK longer than MAXBLK sets ERR_BLKLEN and does nothing else (43_block_scheduler.md R161). -/
def Obligations.BlockTooLongSetsErrBlklen : Prop :=
  ∀ (s : State) (n : Half), s.life = .streaming → s.maxblk.toNat < n.toNat →
    exec (.block n) s = .next { s with errs := s.errs ||| 4 }

/-- The pointer and the counters of a BLOCK, the frame guard, the counter reset, FIRED, and what the
block leaves alone, io among it (43_block_scheduler.md R163, R164, R166, R167, R168). -/
def Obligations.BlockCountersAndGuard : Prop :=
  ∀ (s : State) (n : Half), s.life = .streaming → n.toNat ≤ s.maxblk.toNat →
    ∃ t, exec (.block n) s = .next t ∧
      t = { s with
        wp := t.wp, hopcnt := t.hopcnt, hist := t.hist, framecnt := t.framecnt, fired := t.fired
        ring := t.ring, lin := t.lin, cpx := t.cpx, spec := t.spec } ∧
      t.wp.toNat = (s.wp.toNat + n.toNat) % s.build.cap ∧
      t.hist.toNat = min (s.hist.toNat + n.toNat) (s.build.cap + 1) ∧
      if s.build.hop ≤ min (s.hopcnt.toNat + n.toNat) 0xFFFFFFFF ∧
          s.build.cap < min (s.hist.toNat + n.toNat) (s.build.cap + 1) then
        t.fired = true ∧ t.hopcnt = 0 ∧ t.framecnt.toNat = (s.framecnt.toNat + 1) % 2 ^ 32
      else
        t.fired = false ∧ t.hopcnt.toNat = min (s.hopcnt.toNat + n.toNat) 0xFFFFFFFF ∧
          t.framecnt = s.framecnt ∧ t.lin = s.lin ∧ t.cpx = s.cpx ∧ t.spec = s.spec

/-- Ingestion: sample i of every channel lands in slot (WP + i) & (C - 1), a later sample of the same
slot winning, and every other ring word is unchanged (43_block_scheduler.md R162). -/
def Obligations.BlockIngestsSamples : Prop :=
  ∀ (s : State) (n : Half), s.life = .streaming → n.toNat ≤ s.maxblk.toNat →
    ∃ t, exec (.block n) s = .next t ∧
      (∀ ch i, ch < s.build.nch → i < n.toNat → n.toNat ≤ i + s.build.cap →
        t.peek .ring ch (mask s.build (s.wp.toNat + i)) = some (s.read .io ch i)) ∧
      ∀ ch k, k < 65536 →
        (s.build.nch ≤ ch ∨ ∀ i, i < n.toNat → mask s.build (s.wp.toNat + i) ≠ k) →
        t.peek .ring ch k = s.peek .ring ch k

/-- The history of a channel after a BLOCK is the last C words of its old history followed by the block's
samples, also when the block is longer than C (43_block_scheduler.md R162, R163, R170). -/
def Obligations.BlockShiftsHistory : Prop :=
  ∀ (s : State) (n : Half), s.life = .streaming → n.toNat ≤ s.maxblk.toNat →
    ∃ t, exec (.block n) s = .next t ∧ ∀ ch, ch < s.build.nch →
      t.history ch = (s.history ch ++ s.samples ch n.toNat).drop n.toNat

/-- A firing BLOCK gives each channel the frame read from the ring at the new WP, oldest first, its
spectrum EDIT(ch, FWD(frame)) in SPEC and INV of that in CPX, and leaves io, the other rows and the words
beyond a row's depth alone (41_frame_assembler.md R130 to R132, 42_transform.md R148,
43_block_scheduler.md R165). -/
def Obligations.FiringBlockBuildsFrames : Prop :=
  ∀ (s : State) (n : Half), s.life = .streaming → n.toNat ≤ s.maxblk.toNat →
    s.build.hop ≤ s.hopcnt.toNat + n.toNat → s.build.cap < s.hist.toNat + n.toNat →
    ∃ t, exec (.block n) s = .next t ∧ t.fired = true ∧
      (∀ ch, ch < s.build.nch →
        (∀ m, m < s.build.cap → t.peek .lin ch m = some (t.ringRead ch (t.wp.toNat + m))) ∧
        ∀ j, j < 2 * s.build.cap →
          t.peek .spec ch j = some (spectrumWord (edit s.build ch (Config.fwd s.build.log2c
            (interleave s.build.log2c fun m => t.ringRead ch (t.wp.toNat + m)))) j) ∧
          t.peek .cpx ch j = some (spectrumWord (Config.inv s.build.log2c (edit s.build ch
            (Config.fwd s.build.log2c
              (interleave s.build.log2c fun m => t.ringRead ch (t.wp.toNat + m))))) j)) ∧
      ∀ a ch k, a ≠ .ring → k < 65536 →
        (s.build.nch ≤ ch ∨ a = .io ∨ a = .lin ∧ s.build.cap ≤ k ∨ 2 * s.build.cap ≤ k) →
          t.peek a ch k = s.peek a ch k

/-- The round trip through a firing BLOCK, with the identity EDIT: where the frame that LIN shows holds
finite samples of magnitude at most 1, none subnormal, every real word of CPX is within EPS_RT of its
sample and every imaginary word within EPS_RT of 0; EPS_RT is 1e-4 for C = 512 (42_transform.md R144,
R145, R148). RT(EPS_RT) is assumed, in the type of the transform pair (log 5); the number of a word is its
binary32 value, PRESUMED, and the subnormal samples are left out by a DEDUCED reading of R147 (log 12). -/
def Obligations.FiringBlockRoundTrips : Prop :=
  Config.epsRt 9 = 1 / 10000 ∧
  ∀ (s : State) (n : Half), s.life = .streaming → n.toNat ≤ s.maxblk.toNat →
    s.build.hop ≤ s.hopcnt.toNat + n.toNat → s.build.cap < s.hist.toNat + n.toNat →
    s.build.edit = .identity →
    ∃ t, exec (.block n) s = .next t ∧ ∀ ch, ch < s.build.nch →
      (∀ m, m < s.build.cap → InRange (t.read .lin ch m)) → ∀ m, m < s.build.cap →
        Near (Config.epsRt s.build.log2c) (t.read .cpx ch (2 * m)) (val (t.read .lin ch m)) ∧
        Near (Config.epsRt s.build.log2c) (t.read .cpx ch (2 * m + 1)) 0

/-- N = 0 is legal and, in a state that meets the invariants of R53, changes nothing but FIRED, which
becomes 0 (43_block_scheduler.md R169). -/
def Obligations.BlockOfNoSamplesOnlyClearsFired : Prop :=
  ∀ s : State, Inv s → s.life = .streaming → exec (.block 0) s = .next { s with fired := false }

/-- A BLOCK fires at most once, and after priming a BLOCK with N >= HOP always fires
(43_block_scheduler.md R171). -/
def Obligations.BlockFiresAtMostOnce : Prop :=
  ∀ (s : State) (n : Half), s.life = .streaming → n.toNat ≤ s.maxblk.toNat →
    ∃ t, exec (.block n) s = .next t ∧
      (t.fired = true ∧ t.framecnt = s.framecnt + 1 ∧ t.hopcnt = 0 ∨
        t.fired = false ∧ t.framecnt = s.framecnt) ∧
      (s.build.cap < s.hist.toNat → s.build.hop ≤ n.toNat → t.fired = true)

/-- Hop cadence: from a primed state right after a firing, blocks of one length N fire exactly once per
ceil(HOP/N) blocks (43_block_scheduler.md R173). -/
def Obligations.HopCadence : Prop :=
  ∀ (s : State) (n : Half), Inv s → s.life = .streaming → s.build.cap < s.hist.toNat → s.hopcnt = 0 →
    1 ≤ n.toNat → n.toNat ≤ s.maxblk.toNat → ∀ k : Nat,
      exec (.block n) (s.afterBlocks n k) = .next (s.afterBlocks n (k + 1)) ∧
      ((s.afterBlocks n (k + 1)).fired = true ↔ (s.build.hop + n.toNat - 1) / n.toNat ∣ k + 1)

/-- After priming, a BLOCK fires if and only if HOPCNT + N reaches HOP, and HOPCNT becomes 0 or the sum
(43_block_scheduler.md R173, R174). -/
def Obligations.PrimedBlockFiresOnHop : Prop :=
  ∀ (s : State) (n : Half), Inv s → s.life = .streaming → s.build.cap < s.hist.toNat →
    n.toNat ≤ s.maxblk.toNat →
    ∃ t, exec (.block n) s = .next t ∧
      (t.fired = true ↔ s.build.hop ≤ s.hopcnt.toNat + n.toNat) ∧
      t.hopcnt.toNat = if s.build.hop ≤ s.hopcnt.toNat + n.toNat then 0 else s.hopcnt.toNat + n.toNat

/-- Wrap-around correctness: after more than C samples have been ingested, the C positions from WP read
as the last C samples of the stream in order (40_ringbuffer.md R117). -/
def Obligations.RingHoldsLastSamples : Prop :=
  ∀ (s : State) (stream : Nat → List Word) (ch : Nat), Streamed s stream → ch < s.build.nch →
    s.build.cap < (stream ch).length → ∀ m, m < s.build.cap →
      (stream ch)[(stream ch).length - s.build.cap + m]? = some (s.ringRead ch (s.wp.toNat + m))

/-- The frame of a firing BLOCK is the last C samples of the stream, and more than C have been ingested
by then (41_frame_assembler.md R134, R135). -/
def Obligations.FiredFrameIsLastSamples : Prop :=
  ∀ (s : State) (stream : Nat → List Word) (n : Half) (t : State) (ch : Nat), Streamed s stream →
    acceptsBlock s n = true → exec (.block n) s = .next t → t.fired = true → ch < s.build.nch →
    s.build.cap < (stream ch ++ s.samples ch n.toNat).length ∧
    ∀ m, m < s.build.cap → t.peek .lin ch m =
      (stream ch ++ s.samples ch n.toNat)[
        (stream ch ++ s.samples ch n.toNat).length - s.build.cap + m]?

/-- Cold start: no BLOCK fires before more than C samples have been ingested since SETUP, and the block
that first brings the total above C always fires (43_block_scheduler.md R172). -/
def Obligations.ColdStartNeverFires : Prop :=
  ∀ (s : State) (k : Nat) (n : Half) (t : State), Ingested s k → acceptsBlock s n = true →
    exec (.block n) s = .next t →
    (s.hist.toNat = min k (s.build.cap + 1)) ∧
    (k + n.toNat ≤ s.build.cap → t.fired = false) ∧
    (k ≤ s.build.cap → s.build.cap < k + n.toNat → t.fired = true)

/-! ## The bus -/

/-- A window word's address selects it, and only existing words are selected (20_memory.md R62). -/
def Obligations.WindowAddressSelectsWord : Prop :=
  ∀ (b : Build) (w : Window) (ch idx : Nat),
    (ch < b.nch → idx < w.depth b → decodeAddr b (w.addr ch idx) = .win w ch idx) ∧
    ∀ addr : Word, decodeAddr b addr = .win w ch idx →
      addr = w.addr ch idx ∧ ch < b.nch ∧ idx < w.depth b

/-- The address map by numbers: what is misaligned, which addresses are registers, and what is unmapped
(20_memory.md R61, R63, 10_state.md R44). -/
def Obligations.AddressMap : Prop :=
  ∀ (b : Build) (addr : Word),
    (decodeAddr b addr = .misaligned ↔ addr.toNat % 4 ≠ 0) ∧
    (∀ r : Csr, decodeAddr b addr = .csr r ↔ addr.toNat = r.offset) ∧
    (decodeAddr b addr = .unmapped ↔ addr.toNat % 4 = 0 ∧
      (0x34 ≤ addr.toNat ∧ addr.toNat < 0x01000000 ∨ 0x05000000 ≤ addr.toNat ∨
        ∃ w : Window, addr.toNat / 2 ^ 24 = w.region ∧
          (b.nch ≤ addr.toNat / 2 ^ 18 % 64 ∨ w.depth b ≤ addr.toNat / 4 % 65536)))

/-- Bus errors: a misaligned or unmapped access and a write to a read-only target set ERR_BUS, a read
then returns 0, and nothing else changes; a read of CMD is no error (20_memory.md R64). -/
def Obligations.BusErrors : Prop :=
  ∀ (s : State) (addr v : Word),
    (decodeAddr s.build addr = .misaligned ∨ decodeAddr s.build addr = .unmapped →
      exec (.busRd addr) s =
        .next { s with errs := s.errs ||| 8, returned := s.returned ++ [0] } ∧
      exec (.busWr addr v) s = .next { s with errs := s.errs ||| 8 }) ∧
    (∀ r : Csr, decodeAddr s.build addr = .csr r → r ≠ .cmd → r ≠ .arg →
      exec (.busWr addr v) s = .next { s with errs := s.errs ||| 8 }) ∧
    (∀ (w : Window) ch idx, decodeAddr s.build addr = .win w ch idx → w ≠ .io →
      exec (.busWr addr v) s = .next { s with errs := s.errs ||| 8 }) ∧
    (decodeAddr s.build addr = .csr .cmd →
      exec (.busRd addr) s = .next { s with returned := s.returned ++ [0] })

/-- A read of a register returns its value and changes nothing else (20_memory.md R66, 10_state.md R22,
R35 to R43). WP reads with the bits above LOG2C-1 zero. -/
def Obligations.RegisterReads : Prop :=
  ∀ (s : State) (r : Csr),
    exec (.busRd (BitVec.ofNat 32 r.offset)) s =
      .next { s with returned := s.returned ++ [s.readCsr r] } ∧
    s.readCsr .id = 0x5A4C0007 ∧ s.readCsr .status = s.statusWord ∧ s.readCsr .cmd = 0 ∧
    s.readCsr .arg = s.arg ∧ s.readCsr .result = s.result ∧
    (s.readCsr .wp).toNat = s.wp.toNat % s.build.cap ∧ s.readCsr .hopcnt = s.hopcnt ∧
    s.readCsr .hist = s.hist ∧ s.readCsr .framecnt = s.framecnt ∧ s.readCsr .srate = s.srate ∧
    (s.readCsr .maxblk).toNat = s.maxblk.toNat

/-- The fields of STATUS: LIFE, FIRED, PRIMED as HIST > C, the six errors, every other bit 0; a write to
STATUS is a bus error and changes no field (10_state.md R25, R27, R34). -/
def Obligations.StatusLayout : Prop :=
  ∀ s : State,
    (s.statusWord.toNat % 4 = match s.life with | .idle => 0 | .streaming => 1 | .cfgerr => 2) ∧
    s.statusWord.getLsbD 2 = s.fired ∧
    (s.statusWord.getLsbD 3 = true ↔ s.build.cap < s.hist.toNat) ∧
    (∀ e : Err, s.statusWord.getLsbD (8 + e.bit) = s.hasErr e) ∧
    (∀ i, 4 ≤ i ∧ i < 8 ∨ 14 ≤ i → s.statusWord.getLsbD i = false) ∧
    ∀ v, exec (.busWr 0x0C v) s = .next { s with errs := s.errs ||| 8 }

/-- PARAM and PARAM2 hold the build's parameters in their fields, the reserved bits 0 (10_state.md R23,
R24). -/
def Obligations.ParameterRegisters : Prop :=
  (∀ s : State,
    (s.readCsr .param).toNat = s.build.log2c + 16 * (s.build.nch - 1) + 256 * s.build.hop ∧
    (s.readCsr .param2).toNat = s.build.iod) ∧
  (∀ s : State, s.build = Build.default →
    s.readCsr .param = 0x00004019 ∧ s.readCsr .param2 = 0x00000400)

/-- A read of a window word returns the word it holds and changes nothing else; an unspecified word
reads as some word, and still nothing else changes (20_memory.md R66, R72; the draw is the model's:
log 4). -/
def Obligations.WindowReads : Prop :=
  ∀ (s : State) (w : Window) (ch idx : Nat), ch < s.build.nch → idx < w.depth s.build →
    ∃ v, exec (.busRd (w.addr ch idx)) s = .next { s with returned := s.returned ++ [v] } ∧
      ∀ u, s.peek w.arr ch idx = some u → v = u

/-- A write to ARG stores the word and changes nothing else (10_state.md R36, 20_memory.md R67). -/
def Obligations.ArgWrites : Prop :=
  ∀ (s : State) (v : Word), exec (.busWr 0x14 v) s = .next { s with arg := v }

/-- A write to an IO word stores it, in every lifecycle state, and changes nothing else
(20_memory.md R67, 45_bus.md R211). -/
def Obligations.IoWrites : Prop :=
  ∀ (s : State) (ch i : Nat) (v : Word), ch < s.build.nch → i < s.build.iod →
    ∃ t, exec (.busWr (Window.io.addr ch i) v) s = .next t ∧ t = { s with io := t.io } ∧
      t.peek .io ch i = some v ∧
      ∀ ch' k, k < 65536 → ¬ (ch' = ch ∧ k = i) → t.peek .io ch' k = s.peek .io ch' k

/-- A write of a legal command word to CMD performs the command (30_encoding.md R90, 10_state.md R35). -/
def Obligations.CmdWritesIssueCommands : Prop :=
  ∀ (s : State) (w : Word) (i : Instr), decode s.build (.cmd32 w) = .ok i →
    exec (.busWr 0x10 w) s = exec i s

/-- Pass-through at the bus: an IO word that the host writes reads back unchanged after any command but a
SETUP, a BLOCK among them (20_memory.md R70, 43_block_scheduler.md R168, 45_bus.md R212). -/
def Obligations.IoReadsBackAcrossCommand : Prop :=
  ∀ (s : State) (ch i : Nat) (v w : Word) (rest : List Event), ch < s.build.nch → i < s.build.iod →
    (∀ d, decodeCmd s.build w = .ok d → d.op ≠ .setup) →
    s.pending = .txn (encode (.busWr (Window.io.addr ch i) v)).toTxn ::
      .txn (Encoding.cmd32 w).toTxn :: .txn (encode (.busRd (Window.io.addr ch i))).toTxn :: rest →
    ∃ t, Sys2Proof.core.run 3 s = .next t ∧ t.returned = s.returned ++ [v] ∧ t.pending = rest

/-! ## Errors -/

/-- The LIFE check: SETUP is refused while streaming, BLOCK, RING_WRITE and RING_READ outside it, with
ERR_STATE and no other effect; every other entry of the table lets the command run, which then does not
set ERR_STATE (60_exceptions.md R233). -/
def Obligations.LifeCheck : Prop :=
  ∀ (s : State) (d : Command),
    (d.op = .ringWrite ∨ d.op = .ringRead → d.ch.toNat < s.build.nch) →
    ∃ t, exec d.toInstr s = .next t ∧
      if d.op = .setup ∧ s.life = .streaming ∨
          (d.op = .block ∨ d.op = .ringWrite ∨ d.op = .ringRead) ∧ s.life ≠ .streaming then
        t = { s with errs := s.errs ||| 2 }
      else t.hasErr .state = true → s.hasErr .state = true

/-- A command reports exactly one error class, in the order ILLEGAL, STATE, the command's own check
(60_exceptions.md R234). -/
def Obligations.OneErrorClass : Prop :=
  ∀ (s : State) (w : Word), s.errs = 0 →
    ∃ t, exec (.busWr cmdAddr w) s = .next t ∧
      match decodeCmd s.build w with
      | .error _ => t.errs = 1
      | .ok d =>
        if allowed d.op s.life = false then t.errs = 2
        else if d.op = .block then t.errs = if s.maxblk.toNat < d.imm.toNat then 4 else 0
        else if d.op = .setup then
          t.errs = (if d.ch.toNat + 1 ≠ s.build.nch then 16 else 0) |||
            (if d.imm.toNat = 0 ∨ s.build.iod < d.imm.toNat then 32 else 0)
        else t.errs = 0

/-- Errors are precise: a failed command is identical to no command apart from the bits of the error class
it raises, all other error bits included, but that a rejected SETUP also sets LIFE to CFGERR, always.
The failures are an ILLEGAL word, a refused LIFE check, a BLOCK longer than MAXBLK and a SETUP with a bad
channel count or block size, whether or not their bits are already set; every other command raises
nothing: it leaves the error bits as they are, or clears them if it is CLRERR (60_exceptions.md R231). -/
def Obligations.FailedCommandsArePrecise : Prop :=
  ∀ (s : State) (w : Word), ∃ t, exec (.busWr cmdAddr w) s = .next t ∧
    match decodeCmd s.build w with
    | .error _ => t = { s with errs := s.errs ||| 1 }
    | .ok d =>
      if allowed d.op s.life = false then t = { s with errs := s.errs ||| 2 }
      else if d.op = .block ∧ s.maxblk.toNat < d.imm.toNat then t = { s with errs := s.errs ||| 4 }
      else if d.op = .setup ∧
          (d.ch.toNat + 1 ≠ s.build.nch ∨ d.imm.toNat = 0 ∨ s.build.iod < d.imm.toNat) then
        t = { s with
          errs := s.errs ||| (if d.ch.toNat + 1 ≠ s.build.nch then 16 else 0) |||
            (if d.imm.toNat = 0 ∨ s.build.iod < d.imm.toNat then 32 else 0)
          life := .cfgerr }
      else t.errs = if d.op = .clrerr then 0 else s.errs

/-- Errors accumulate: a bit once set stays set over every step but a reset and the CLRERR command
(60_exceptions.md R236). -/
def Obligations.ErrorsAreSticky : Prop :=
  ∀ (s t : State) (e : Err), step s = .next t → s.hasErr e = true →
    s.pending.head? ≠ some .reset →
    s.pending.head? ≠ some (.txn (Encoding.cmd32 0x60000000).toTxn) → t.hasErr e = true

/-- A well-behaved host never sets an error bit: in its runs STATUS[13:8] stays 0
(70_reset_and_hazards.md R264). -/
def Obligations.WellBehavedHostSeesNoError : Prop :=
  ∀ (k : Nat) (s t : State), ErrorFree s → Sys2Proof.core.run k s = .next t →
    (∀ j u e rest, j < k → Sys2Proof.core.run j s = .next u → u.pending = e :: rest →
      wellBehaved u e = true) → ErrorFree t

/-! ## The whole machine -/

/-- What each register and array can be written by, in a step that is not a reset: the build by nothing;
LIFE by SETUP and TEARDOWN; RESULT by RING_READ; WP, HOPCNT, HIST, FRAMECNT, FIRED and the frame buffers
by BLOCK and SETUP; SRATE and MAXBLK by SETUP; the ring by BLOCK, RING_WRITE and SETUP; ARG by no
command; io by SETUP and by no other command (10_state.md R25, R26, R36 to R43, R45 to R49, 00_scope.md
R11). -/
def Obligations.OnlyTheseCommandsWrite : Prop :=
  ∀ s t : State, step s = .next t → resetsNext s = false →
    t.build = s.build ∧
    (t.life ≠ s.life → opNext s = some .setup ∨ opNext s = some .teardown) ∧
    (t.result ≠ s.result → opNext s = some .ringRead) ∧
    (¬ (t.wp = s.wp ∧ t.hopcnt = s.hopcnt ∧ t.hist = s.hist ∧ t.framecnt = s.framecnt ∧
        t.fired = s.fired ∧ t.lin = s.lin ∧ t.cpx = s.cpx ∧ t.spec = s.spec) →
      opNext s = some .block ∨ opNext s = some .setup) ∧
    (¬ (t.srate = s.srate ∧ t.maxblk = s.maxblk) → opNext s = some .setup) ∧
    (t.ring ≠ s.ring →
      opNext s = some .block ∨ opNext s = some .ringWrite ∨ opNext s = some .setup) ∧
    (t.arg ≠ s.arg → opNext s = none) ∧
    (t.io ≠ s.io → opNext s = some .setup ∨ opNext s = none)

/-- The invariants (a) to (f) of 10_state.md R53 are kept by every step, from every state that meets
them. -/
def Obligations.InvariantsKept : Prop :=
  ∀ s t : State, Inv s → step s = .next t → Inv t

/-- The state right after reset meets the invariants, on every build (10_state.md R53). -/
def Obligations.InvariantsHoldAtReset : Prop :=
  ∀ b : Build, Inv (State.resetOf b)

/-- Every step keeps the canonical form of the storage arrays (the form is the model's: log 8). -/
def Obligations.CanonicalKept : Prop :=
  ∀ s t : State, Canonical s → step s = .next t → Canonical t

/-- The storage is in canonical form at reset, on every build (log 8). -/
def Obligations.CanonicalAtReset : Prop :=
  ∀ b : Build, Canonical (State.resetOf b)

/-- No unspecified word can be read inside a command: every step keeps it that while streaming every
storage word is specified, and it holds at reset (70_reset_and_hazards.md R261). -/
def Obligations.StreamingStorageIsSpecified : Prop :=
  (∀ b : Build, Specified (State.resetOf b)) ∧
  (∀ s t : State, Specified s → step s = .next t → Specified t) ∧
  ∀ (s : State) a ch k, Specified s → s.life = .streaming → s.peek a ch k ≠ none

/-- No instruction uses one channel's rows to compute another channel's: two states that agree on a
channel still do after any instruction, whatever the other rows hold (20_memory.md R76). -/
def Obligations.ChannelsAreDisjoint : Prop :=
  ∀ (i : Instr) (s t s' t' : State) (ch : Nat), AgreeOn ch s t → exec i s = .next s' →
    exec i t = .next t' → AgreeOn ch s' t'
end

