-- ==== Sys2Proof/Laws/Memory.lean ====
section
/-!
SUPPORT. The laws of one storage array: reading after writing, and that every operation keeps the
canonical form, in which equal arrays are equal data.
-/

namespace Sys2Proof.Machine

open Sys2Proof

@[simp] theorem findCell_insertCell_self (k : Nat) (v : Word) (l : List (Nat × Word)) :
    findCell k (insertCell k v l) = some v := by
  induction l with
  | nil => simp [insertCell, findCell]
  | cons c l ih =>
    obtain ⟨a, w⟩ := c
    unfold insertCell
    split
    · simp [findCell]
    · split
      · simp [findCell]
      · rename_i h1 h2
        simp [findCell, ih, Ne.symm h2]

theorem findCell_insertCell_ne {k k' : Nat} (h : k' ≠ k) (v : Word) (l : List (Nat × Word)) :
    findCell k' (insertCell k v l) = findCell k' l := by
  induction l with
  | nil => simp [insertCell, findCell, Ne.symm h]
  | cons c l ih =>
    obtain ⟨a, w⟩ := c
    unfold insertCell
    split
    · simp [findCell, Ne.symm h]
    · split
      · rename_i h1 h2
        subst h2
        simp [findCell, Ne.symm h]
      · simp [findCell, ih]

@[simp] theorem findCell_removeCell_self (k : Nat) (l : List (Nat × Word)) :
    findCell k (removeCell k l) = none := by
  induction l with
  | nil => rfl
  | cons c l ih =>
    obtain ⟨a, w⟩ := c
    by_cases h : a = k
    · simpa [removeCell, h] using ih
    · simpa [removeCell, h, findCell] using ih

theorem findCell_removeCell_ne {k k' : Nat} (h : k' ≠ k) (l : List (Nat × Word)) :
    findCell k' (removeCell k l) = findCell k' l := by
  induction l with
  | nil => rfl
  | cons c l ih =>
    obtain ⟨a, w⟩ := c
    by_cases ha : a = k
    · subst ha
      simpa [removeCell, findCell, Ne.symm h] using ih
    · by_cases hk : a = k'
      · simp [removeCell, findCell, hk, h]
      · simpa [removeCell, ha, findCell, hk] using ih

@[simp] theorem Memory.get_set_self (m : Memory) (k : Nat) (v : Word) : (m.set k v).get k = some v := by
  unfold Memory.set Memory.get
  split
  · rename_i h
    simp [h]
  · simp

theorem Memory.get_set_ne (m : Memory) {k k' : Nat} (h : k' ≠ k) (v : Word) :
    (m.set k v).get k' = m.get k' := by
  unfold Memory.set Memory.get
  split
  · simp [findCell_removeCell_ne h]
  · simp [findCell_insertCell_ne h]

/-- What a write does to one array: the word written, and no other. -/
theorem Memory.get_set (m : Memory) (k k' : Nat) (v : Word) :
    (m.set k v).get k' = if k' = k then some v else m.get k' := by
  split
  · rename_i h
    simp [h]
  · rename_i h
    exact m.get_set_ne h v

@[simp] theorem Memory.fill_set (m : Memory) (k : Nat) (v : Word) : (m.set k v).fill = m.fill := by
  unfold Memory.set
  split <;> rfl

@[simp] theorem Memory.get_filled (v : Word) (k : Nat) : (Memory.filled v).get k = some v := rfl
@[simp] theorem Memory.fill_filled (v : Word) : (Memory.filled v).fill = some v := rfl
@[simp] theorem Memory.get_unspecified (k : Nat) : Memory.unspecified.get k = none := rfl
@[simp] theorem Memory.fill_unspecified : Memory.unspecified.fill = none := rfl

theorem Memory.wf_iff (m : Memory) :
    m.wf = true ↔ m.cells.Pairwise (fun x y => x.1 < y.1) ∧ ∀ c ∈ m.cells, m.fill ≠ some c.2 := by
  simp [Memory.wf]

theorem mem_insertCell {k : Nat} {v : Word} {l : List (Nat × Word)} {c : Nat × Word}
    (h : c ∈ insertCell k v l) : c = (k, v) ∨ c ∈ l := by
  induction l with
  | nil => simpa [insertCell] using h
  | cons d l ih =>
    obtain ⟨a, w⟩ := d
    unfold insertCell at h
    split at h
    · simpa using h
    · split at h
      · rcases List.mem_cons.1 h with h | h
        · exact .inl h
        · exact .inr (List.mem_cons_of_mem _ h)
      · rcases List.mem_cons.1 h with h | h
        · exact .inr (by simp [h])
        · exact (ih h).imp id (List.mem_cons_of_mem _)

theorem pairwise_insertCell (k : Nat) (v : Word) (l : List (Nat × Word))
    (h : l.Pairwise fun x y => x.1 < y.1) : (insertCell k v l).Pairwise fun x y => x.1 < y.1 := by
  induction l with
  | nil => simp [insertCell]
  | cons d l ih =>
    obtain ⟨a, w⟩ := d
    obtain ⟨ha, hl⟩ := List.pairwise_cons.1 h
    unfold insertCell
    split
    · rename_i hk
      refine List.pairwise_cons.2 ⟨fun c hc => ?_, h⟩
      rcases List.mem_cons.1 hc with rfl | hc
      · exact hk
      · exact lt_trans hk (ha c hc)
    · split
      · rename_i hk
        subst hk
        exact List.pairwise_cons.2 ⟨ha, hl⟩
      · rename_i h1 h2
        refine List.pairwise_cons.2 ⟨fun c hc => ?_, ih hl⟩
        rcases mem_insertCell hc with rfl | hc
        · exact lt_of_le_of_ne (not_lt.1 h1) (Ne.symm h2)
        · exact ha c hc

/-- A write keeps the canonical form. -/
theorem Memory.wf_set {m : Memory} (h : m.wf = true) (k : Nat) (v : Word) : (m.set k v).wf = true := by
  rw [Memory.wf_iff] at h ⊢
  unfold Memory.set
  split
  · exact ⟨h.1.filter _, fun c hc => h.2 c (List.mem_of_mem_filter hc)⟩
  · rename_i hv
    refine ⟨pairwise_insertCell k v _ h.1, fun c hc => ?_⟩
    rcases mem_insertCell hc with rfl | hc
    · exact hv
    · exact h.2 c hc

@[simp] theorem Memory.wf_filled (v : Word) : (Memory.filled v).wf = true := rfl
@[simp] theorem Memory.wf_unspecified : Memory.unspecified.wf = true := rfl

theorem findCell_of_lt {k : Nat} {l : List (Nat × Word)} (h : ∀ c ∈ l, k < c.1) : findCell k l = none := by
  induction l with
  | nil => rfl
  | cons c l ih =>
    have hc := h c (by simp)
    simp only [findCell, if_neg (Nat.ne_of_gt hc)]
    exact ih fun d hd => h d (List.mem_cons_of_mem _ hd)

theorem mem_of_findCell {k : Nat} {v : Word} {l : List (Nat × Word)} (h : findCell k l = some v) :
    (k, v) ∈ l := by
  induction l with
  | nil => simp [findCell] at h
  | cons c l ih =>
    obtain ⟨a, w⟩ := c
    unfold findCell at h
    split at h
    · rename_i ha
      subst ha
      simp_all
    · exact List.mem_cons_of_mem _ (ih h)

theorem findCell_of_mem {c : Nat × Word} {l : List (Nat × Word)}
    (h : l.Pairwise fun x y => x.1 < y.1) (hc : c ∈ l) : findCell c.1 l = some c.2 := by
  induction l with
  | nil => simp at hc
  | cons d l ih =>
    obtain ⟨hd, hl⟩ := List.pairwise_cons.1 h
    rcases List.mem_cons.1 hc with rfl | hc
    · simp [findCell]
    · have := hd c hc
      unfold findCell
      rw [if_neg (Nat.ne_of_lt this)]
      exact ih hl hc

/-- In canonical form a word is listed exactly where it differs from what an unlisted word reads as. -/
theorem Memory.mem_cells_iff {m : Memory} (h : m.wf = true) (c : Nat × Word) :
    c ∈ m.cells ↔ m.get c.1 = some c.2 ∧ m.fill ≠ some c.2 := by
  rw [Memory.wf_iff] at h
  refine ⟨fun hc => ⟨?_, h.2 c hc⟩, fun ⟨hg, hf⟩ => ?_⟩
  · simp [Memory.get, findCell_of_mem h.1 hc]
  · unfold Memory.get at hg
    cases hfind : findCell c.1 m.cells with
    | none => simp [hfind] at hg; exact absurd hg hf
    | some w => simp [hfind] at hg; exact mem_of_findCell (hg ▸ hfind)

/-- Equal arrays are equal data: two arrays in canonical form that read alike, listed or not, are one. -/
theorem Memory.ext_of_wf {m n : Memory} (hm : m.wf = true) (hn : n.wf = true) (hf : m.fill = n.fill)
    (hg : ∀ k, m.get k = n.get k) : m = n := by
  have hmem : ∀ c, c ∈ m.cells ↔ c ∈ n.cells := fun c => by
    rw [Memory.mem_cells_iff hm, Memory.mem_cells_iff hn, hg, hf]
  have hmp := (m.wf_iff.1 hm).1
  have hnp := (n.wf_iff.1 hn).1
  have hirr : ∀ (l : List (Nat × Word)), l.Pairwise (fun x y => x.1 < y.1) → l.Nodup := fun l hl =>
    hl.imp fun h e => absurd (congrArg Prod.fst e) (Nat.ne_of_lt h)
  have hperm : m.cells.Perm n.cells := (List.perm_ext_iff_of_nodup (hirr _ hmp) (hirr _ hnp)).2 hmem
  have hcells : m.cells = n.cells :=
    hperm.eq_of_pairwise (fun a b _ _ h1 h2 => absurd (lt_trans h1 h2) (lt_irrefl _)) hmp hnp
  cases m
  cases n
  simp_all

end Sys2Proof.Machine
end

