-- ==== Sys2Proof/Laws/State.lean ====
section
/-!
SUPPORT. One lemma for each field of each named update of the state, so that no later proof unfolds a
record update.
-/

namespace Sys2Proof.Machine

open Sys2Proof

/-! ## Replacing a storage array -/

@[simp] theorem State.setArr_build (s : State) (a : Arr) (m : Memory) : (s.setArr a m).build = s.build := by
  cases a <;> rfl
@[simp] theorem State.setArr_life (s : State) (a : Arr) (m : Memory) : (s.setArr a m).life = s.life := by
  cases a <;> rfl
@[simp] theorem State.setArr_fired (s : State) (a : Arr) (m : Memory) : (s.setArr a m).fired = s.fired := by
  cases a <;> rfl
@[simp] theorem State.setArr_errs (s : State) (a : Arr) (m : Memory) : (s.setArr a m).errs = s.errs := by
  cases a <;> rfl
@[simp] theorem State.setArr_arg (s : State) (a : Arr) (m : Memory) : (s.setArr a m).arg = s.arg := by
  cases a <;> rfl
@[simp] theorem State.setArr_result (s : State) (a : Arr) (m : Memory) : (s.setArr a m).result = s.result := by
  cases a <;> rfl
@[simp] theorem State.setArr_wp (s : State) (a : Arr) (m : Memory) : (s.setArr a m).wp = s.wp := by
  cases a <;> rfl
@[simp] theorem State.setArr_hopcnt (s : State) (a : Arr) (m : Memory) : (s.setArr a m).hopcnt = s.hopcnt := by
  cases a <;> rfl
@[simp] theorem State.setArr_hist (s : State) (a : Arr) (m : Memory) : (s.setArr a m).hist = s.hist := by
  cases a <;> rfl
@[simp] theorem State.setArr_framecnt (s : State) (a : Arr) (m : Memory) : (s.setArr a m).framecnt = s.framecnt := by
  cases a <;> rfl
@[simp] theorem State.setArr_srate (s : State) (a : Arr) (m : Memory) : (s.setArr a m).srate = s.srate := by
  cases a <;> rfl
@[simp] theorem State.setArr_maxblk (s : State) (a : Arr) (m : Memory) : (s.setArr a m).maxblk = s.maxblk := by
  cases a <;> rfl
@[simp] theorem State.setArr_returned (s : State) (a : Arr) (m : Memory) : (s.setArr a m).returned = s.returned := by
  cases a <;> rfl
@[simp] theorem State.setArr_pending (s : State) (a : Arr) (m : Memory) : (s.setArr a m).pending = s.pending := by
  cases a <;> rfl
@[simp] theorem State.setArr_epoch (s : State) (a : Arr) (m : Memory) : (s.setArr a m).epoch = s.epoch := by
  cases a <;> rfl

@[simp] theorem State.setArr_arr_self (s : State) (a : Arr) (m : Memory) : (s.setArr a m).arr a = m := by
  cases a <;> rfl
theorem State.setArr_arr_ne (s : State) {a b : Arr} (h : b ≠ a) (m : Memory) :
    (s.setArr a m).arr b = s.arr b := by
  cases a <;> cases b <;> first | rfl | exact absurd rfl h
@[simp] theorem State.setArr_setArr (s : State) (a : Arr) (m n : Memory) :
    (s.setArr a m).setArr a n = s.setArr a n := by
  cases a <;> rfl
@[simp] theorem State.setArr_arr (s : State) (a : Arr) : s.setArr a (s.arr a) = s := by
  cases a <;> rfl

/-! ## Writing a storage word -/

@[simp] theorem State.write_build (s : State) (a : Arr) (ch k : Nat) (v : Word) : (s.write a ch k v).build = s.build := by
  simp [State.write]
@[simp] theorem State.write_life (s : State) (a : Arr) (ch k : Nat) (v : Word) : (s.write a ch k v).life = s.life := by
  simp [State.write]
@[simp] theorem State.write_fired (s : State) (a : Arr) (ch k : Nat) (v : Word) : (s.write a ch k v).fired = s.fired := by
  simp [State.write]
@[simp] theorem State.write_errs (s : State) (a : Arr) (ch k : Nat) (v : Word) : (s.write a ch k v).errs = s.errs := by
  simp [State.write]
@[simp] theorem State.write_arg (s : State) (a : Arr) (ch k : Nat) (v : Word) : (s.write a ch k v).arg = s.arg := by
  simp [State.write]
@[simp] theorem State.write_result (s : State) (a : Arr) (ch k : Nat) (v : Word) : (s.write a ch k v).result = s.result := by
  simp [State.write]
@[simp] theorem State.write_wp (s : State) (a : Arr) (ch k : Nat) (v : Word) : (s.write a ch k v).wp = s.wp := by
  simp [State.write]
@[simp] theorem State.write_hopcnt (s : State) (a : Arr) (ch k : Nat) (v : Word) : (s.write a ch k v).hopcnt = s.hopcnt := by
  simp [State.write]
@[simp] theorem State.write_hist (s : State) (a : Arr) (ch k : Nat) (v : Word) : (s.write a ch k v).hist = s.hist := by
  simp [State.write]
@[simp] theorem State.write_framecnt (s : State) (a : Arr) (ch k : Nat) (v : Word) : (s.write a ch k v).framecnt = s.framecnt := by
  simp [State.write]
@[simp] theorem State.write_srate (s : State) (a : Arr) (ch k : Nat) (v : Word) : (s.write a ch k v).srate = s.srate := by
  simp [State.write]
@[simp] theorem State.write_maxblk (s : State) (a : Arr) (ch k : Nat) (v : Word) : (s.write a ch k v).maxblk = s.maxblk := by
  simp [State.write]
@[simp] theorem State.write_returned (s : State) (a : Arr) (ch k : Nat) (v : Word) : (s.write a ch k v).returned = s.returned := by
  simp [State.write]
@[simp] theorem State.write_pending (s : State) (a : Arr) (ch k : Nat) (v : Word) : (s.write a ch k v).pending = s.pending := by
  simp [State.write]
@[simp] theorem State.write_epoch (s : State) (a : Arr) (ch k : Nat) (v : Word) : (s.write a ch k v).epoch = s.epoch := by
  simp [State.write]

@[simp] theorem State.write_arr_self (s : State) (a : Arr) (ch k : Nat) (v : Word) :
    (s.write a ch k v).arr a = (s.arr a).set (cellKey ch k) v := by
  simp [State.write]
theorem State.write_arr_ne (s : State) {a b : Arr} (h : b ≠ a) (ch k : Nat) (v : Word) :
    (s.write a ch k v).arr b = s.arr b := by
  simp [State.write, State.setArr_arr_ne _ h]

/-! ## raise -/

@[simp] theorem State.raise_build (s : State) (e : Err) : (s.raise e).build = s.build := rfl
@[simp] theorem State.raise_life (s : State) (e : Err) : (s.raise e).life = s.life := rfl
@[simp] theorem State.raise_fired (s : State) (e : Err) : (s.raise e).fired = s.fired := rfl
@[simp] theorem State.raise_arg (s : State) (e : Err) : (s.raise e).arg = s.arg := rfl
@[simp] theorem State.raise_result (s : State) (e : Err) : (s.raise e).result = s.result := rfl
@[simp] theorem State.raise_wp (s : State) (e : Err) : (s.raise e).wp = s.wp := rfl
@[simp] theorem State.raise_hopcnt (s : State) (e : Err) : (s.raise e).hopcnt = s.hopcnt := rfl
@[simp] theorem State.raise_hist (s : State) (e : Err) : (s.raise e).hist = s.hist := rfl
@[simp] theorem State.raise_framecnt (s : State) (e : Err) : (s.raise e).framecnt = s.framecnt := rfl
@[simp] theorem State.raise_srate (s : State) (e : Err) : (s.raise e).srate = s.srate := rfl
@[simp] theorem State.raise_maxblk (s : State) (e : Err) : (s.raise e).maxblk = s.maxblk := rfl
@[simp] theorem State.raise_ring (s : State) (e : Err) : (s.raise e).ring = s.ring := rfl
@[simp] theorem State.raise_io (s : State) (e : Err) : (s.raise e).io = s.io := rfl
@[simp] theorem State.raise_lin (s : State) (e : Err) : (s.raise e).lin = s.lin := rfl
@[simp] theorem State.raise_cpx (s : State) (e : Err) : (s.raise e).cpx = s.cpx := rfl
@[simp] theorem State.raise_spec (s : State) (e : Err) : (s.raise e).spec = s.spec := rfl
@[simp] theorem State.raise_returned (s : State) (e : Err) : (s.raise e).returned = s.returned := rfl
@[simp] theorem State.raise_pending (s : State) (e : Err) : (s.raise e).pending = s.pending := rfl
@[simp] theorem State.raise_epoch (s : State) (e : Err) : (s.raise e).epoch = s.epoch := rfl

@[simp] theorem State.raise_errs (s : State) (e : Err) : (s.raise e).errs = s.errs ||| (1#6 <<< e.bit) := rfl
@[simp] theorem State.raise_arr (s : State) (e : Err) (a : Arr) : (s.raise e).arr a = s.arr a := by
  cases a <;> rfl

/-! ## answer -/

@[simp] theorem State.answer_build (s : State) (v : Word) : (s.answer v).build = s.build := rfl
@[simp] theorem State.answer_life (s : State) (v : Word) : (s.answer v).life = s.life := rfl
@[simp] theorem State.answer_fired (s : State) (v : Word) : (s.answer v).fired = s.fired := rfl
@[simp] theorem State.answer_errs (s : State) (v : Word) : (s.answer v).errs = s.errs := rfl
@[simp] theorem State.answer_arg (s : State) (v : Word) : (s.answer v).arg = s.arg := rfl
@[simp] theorem State.answer_result (s : State) (v : Word) : (s.answer v).result = s.result := rfl
@[simp] theorem State.answer_wp (s : State) (v : Word) : (s.answer v).wp = s.wp := rfl
@[simp] theorem State.answer_hopcnt (s : State) (v : Word) : (s.answer v).hopcnt = s.hopcnt := rfl
@[simp] theorem State.answer_hist (s : State) (v : Word) : (s.answer v).hist = s.hist := rfl
@[simp] theorem State.answer_framecnt (s : State) (v : Word) : (s.answer v).framecnt = s.framecnt := rfl
@[simp] theorem State.answer_srate (s : State) (v : Word) : (s.answer v).srate = s.srate := rfl
@[simp] theorem State.answer_maxblk (s : State) (v : Word) : (s.answer v).maxblk = s.maxblk := rfl
@[simp] theorem State.answer_ring (s : State) (v : Word) : (s.answer v).ring = s.ring := rfl
@[simp] theorem State.answer_io (s : State) (v : Word) : (s.answer v).io = s.io := rfl
@[simp] theorem State.answer_lin (s : State) (v : Word) : (s.answer v).lin = s.lin := rfl
@[simp] theorem State.answer_cpx (s : State) (v : Word) : (s.answer v).cpx = s.cpx := rfl
@[simp] theorem State.answer_spec (s : State) (v : Word) : (s.answer v).spec = s.spec := rfl
@[simp] theorem State.answer_pending (s : State) (v : Word) : (s.answer v).pending = s.pending := rfl
@[simp] theorem State.answer_epoch (s : State) (v : Word) : (s.answer v).epoch = s.epoch := rfl

@[simp] theorem State.answer_returned (s : State) (v : Word) : (s.answer v).returned = s.returned ++ [v] := rfl
@[simp] theorem State.answer_arr (s : State) (v : Word) (a : Arr) : (s.answer v).arr a = s.arr a := by
  cases a <;> rfl

/-! ## take -/

@[simp] theorem State.take_build (s : State) (rest : List Event) : (s.take rest).build = s.build := rfl
@[simp] theorem State.take_life (s : State) (rest : List Event) : (s.take rest).life = s.life := rfl
@[simp] theorem State.take_fired (s : State) (rest : List Event) : (s.take rest).fired = s.fired := rfl
@[simp] theorem State.take_errs (s : State) (rest : List Event) : (s.take rest).errs = s.errs := rfl
@[simp] theorem State.take_arg (s : State) (rest : List Event) : (s.take rest).arg = s.arg := rfl
@[simp] theorem State.take_result (s : State) (rest : List Event) : (s.take rest).result = s.result := rfl
@[simp] theorem State.take_wp (s : State) (rest : List Event) : (s.take rest).wp = s.wp := rfl
@[simp] theorem State.take_hopcnt (s : State) (rest : List Event) : (s.take rest).hopcnt = s.hopcnt := rfl
@[simp] theorem State.take_hist (s : State) (rest : List Event) : (s.take rest).hist = s.hist := rfl
@[simp] theorem State.take_framecnt (s : State) (rest : List Event) : (s.take rest).framecnt = s.framecnt := rfl
@[simp] theorem State.take_srate (s : State) (rest : List Event) : (s.take rest).srate = s.srate := rfl
@[simp] theorem State.take_maxblk (s : State) (rest : List Event) : (s.take rest).maxblk = s.maxblk := rfl
@[simp] theorem State.take_ring (s : State) (rest : List Event) : (s.take rest).ring = s.ring := rfl
@[simp] theorem State.take_io (s : State) (rest : List Event) : (s.take rest).io = s.io := rfl
@[simp] theorem State.take_lin (s : State) (rest : List Event) : (s.take rest).lin = s.lin := rfl
@[simp] theorem State.take_cpx (s : State) (rest : List Event) : (s.take rest).cpx = s.cpx := rfl
@[simp] theorem State.take_spec (s : State) (rest : List Event) : (s.take rest).spec = s.spec := rfl
@[simp] theorem State.take_returned (s : State) (rest : List Event) : (s.take rest).returned = s.returned := rfl

@[simp] theorem State.take_pending (s : State) (rest : List Event) : (s.take rest).pending = rest := rfl
@[simp] theorem State.take_epoch (s : State) (rest : List Event) : (s.take rest).epoch = s.epoch + 1 := rfl
@[simp] theorem State.take_arr (s : State) (rest : List Event) (a : Arr) : (s.take rest).arr a = s.arr a := by
  cases a <;> rfl

/-! ## advance -/

@[simp] theorem State.advance_build (s : State) (n : Nat) : (s.advance n).build = s.build := rfl
@[simp] theorem State.advance_life (s : State) (n : Nat) : (s.advance n).life = s.life := rfl
@[simp] theorem State.advance_fired (s : State) (n : Nat) : (s.advance n).fired = s.fired := rfl
@[simp] theorem State.advance_errs (s : State) (n : Nat) : (s.advance n).errs = s.errs := rfl
@[simp] theorem State.advance_arg (s : State) (n : Nat) : (s.advance n).arg = s.arg := rfl
@[simp] theorem State.advance_result (s : State) (n : Nat) : (s.advance n).result = s.result := rfl
@[simp] theorem State.advance_framecnt (s : State) (n : Nat) : (s.advance n).framecnt = s.framecnt := rfl
@[simp] theorem State.advance_srate (s : State) (n : Nat) : (s.advance n).srate = s.srate := rfl
@[simp] theorem State.advance_maxblk (s : State) (n : Nat) : (s.advance n).maxblk = s.maxblk := rfl
@[simp] theorem State.advance_ring (s : State) (n : Nat) : (s.advance n).ring = s.ring := rfl
@[simp] theorem State.advance_io (s : State) (n : Nat) : (s.advance n).io = s.io := rfl
@[simp] theorem State.advance_lin (s : State) (n : Nat) : (s.advance n).lin = s.lin := rfl
@[simp] theorem State.advance_cpx (s : State) (n : Nat) : (s.advance n).cpx = s.cpx := rfl
@[simp] theorem State.advance_spec (s : State) (n : Nat) : (s.advance n).spec = s.spec := rfl
@[simp] theorem State.advance_returned (s : State) (n : Nat) : (s.advance n).returned = s.returned := rfl
@[simp] theorem State.advance_pending (s : State) (n : Nat) : (s.advance n).pending = s.pending := rfl
@[simp] theorem State.advance_epoch (s : State) (n : Nat) : (s.advance n).epoch = s.epoch := rfl

@[simp] theorem State.advance_arr (s : State) (n : Nat) (a : Arr) : (s.advance n).arr a = s.arr a := by
  cases a <;> rfl

/-! ## acceptSetup -/

@[simp] theorem State.acceptSetup_build (s : State) (m : Half) : (s.acceptSetup m).build = s.build := rfl
@[simp] theorem State.acceptSetup_errs (s : State) (m : Half) : (s.acceptSetup m).errs = s.errs := rfl
@[simp] theorem State.acceptSetup_arg (s : State) (m : Half) : (s.acceptSetup m).arg = s.arg := rfl
@[simp] theorem State.acceptSetup_result (s : State) (m : Half) : (s.acceptSetup m).result = s.result := rfl
@[simp] theorem State.acceptSetup_returned (s : State) (m : Half) : (s.acceptSetup m).returned = s.returned := rfl
@[simp] theorem State.acceptSetup_pending (s : State) (m : Half) : (s.acceptSetup m).pending = s.pending := rfl
@[simp] theorem State.acceptSetup_epoch (s : State) (m : Half) : (s.acceptSetup m).epoch = s.epoch := rfl

@[simp] theorem State.acceptSetup_arr (s : State) (m : Half) (a : Arr) :
    (s.acceptSetup m).arr a = Memory.filled 0 := by
  cases a <;> rfl
@[simp] theorem State.acceptSetup_life (s : State) (m : Half) : (s.acceptSetup m).life = .streaming := rfl
@[simp] theorem State.acceptSetup_wp (s : State) (m : Half) : (s.acceptSetup m).wp = 0 := rfl
@[simp] theorem State.acceptSetup_hopcnt (s : State) (m : Half) : (s.acceptSetup m).hopcnt = 0 := rfl
@[simp] theorem State.acceptSetup_hist (s : State) (m : Half) : (s.acceptSetup m).hist = 0 := rfl
@[simp] theorem State.acceptSetup_maxblk (s : State) (m : Half) : (s.acceptSetup m).maxblk = m := rfl

/-! ## raiseIf and rejectSetup -/

@[simp] theorem State.raiseIf_build (s : State) (c : Bool) (e : Err) : (s.raiseIf c e).build = s.build := by
  cases c <;> rfl
@[simp] theorem State.raiseIf_life (s : State) (c : Bool) (e : Err) : (s.raiseIf c e).life = s.life := by
  cases c <;> rfl
@[simp] theorem State.raiseIf_fired (s : State) (c : Bool) (e : Err) : (s.raiseIf c e).fired = s.fired := by
  cases c <;> rfl
@[simp] theorem State.raiseIf_arg (s : State) (c : Bool) (e : Err) : (s.raiseIf c e).arg = s.arg := by
  cases c <;> rfl
@[simp] theorem State.raiseIf_result (s : State) (c : Bool) (e : Err) : (s.raiseIf c e).result = s.result := by
  cases c <;> rfl
@[simp] theorem State.raiseIf_wp (s : State) (c : Bool) (e : Err) : (s.raiseIf c e).wp = s.wp := by
  cases c <;> rfl
@[simp] theorem State.raiseIf_hopcnt (s : State) (c : Bool) (e : Err) : (s.raiseIf c e).hopcnt = s.hopcnt := by
  cases c <;> rfl
@[simp] theorem State.raiseIf_hist (s : State) (c : Bool) (e : Err) : (s.raiseIf c e).hist = s.hist := by
  cases c <;> rfl
@[simp] theorem State.raiseIf_framecnt (s : State) (c : Bool) (e : Err) : (s.raiseIf c e).framecnt = s.framecnt := by
  cases c <;> rfl
@[simp] theorem State.raiseIf_srate (s : State) (c : Bool) (e : Err) : (s.raiseIf c e).srate = s.srate := by
  cases c <;> rfl
@[simp] theorem State.raiseIf_maxblk (s : State) (c : Bool) (e : Err) : (s.raiseIf c e).maxblk = s.maxblk := by
  cases c <;> rfl
@[simp] theorem State.raiseIf_ring (s : State) (c : Bool) (e : Err) : (s.raiseIf c e).ring = s.ring := by
  cases c <;> rfl
@[simp] theorem State.raiseIf_io (s : State) (c : Bool) (e : Err) : (s.raiseIf c e).io = s.io := by
  cases c <;> rfl
@[simp] theorem State.raiseIf_lin (s : State) (c : Bool) (e : Err) : (s.raiseIf c e).lin = s.lin := by
  cases c <;> rfl
@[simp] theorem State.raiseIf_cpx (s : State) (c : Bool) (e : Err) : (s.raiseIf c e).cpx = s.cpx := by
  cases c <;> rfl
@[simp] theorem State.raiseIf_spec (s : State) (c : Bool) (e : Err) : (s.raiseIf c e).spec = s.spec := by
  cases c <;> rfl
@[simp] theorem State.raiseIf_returned (s : State) (c : Bool) (e : Err) : (s.raiseIf c e).returned = s.returned := by
  cases c <;> rfl
@[simp] theorem State.raiseIf_pending (s : State) (c : Bool) (e : Err) : (s.raiseIf c e).pending = s.pending := by
  cases c <;> rfl
@[simp] theorem State.raiseIf_epoch (s : State) (c : Bool) (e : Err) : (s.raiseIf c e).epoch = s.epoch := by
  cases c <;> rfl
@[simp] theorem State.rejectSetup_build (s : State) (c d : Bool) : (s.rejectSetup c d).build = s.build := by
  cases c <;> cases d <;> rfl
@[simp] theorem State.rejectSetup_fired (s : State) (c d : Bool) : (s.rejectSetup c d).fired = s.fired := by
  cases c <;> cases d <;> rfl
@[simp] theorem State.rejectSetup_arg (s : State) (c d : Bool) : (s.rejectSetup c d).arg = s.arg := by
  cases c <;> cases d <;> rfl
@[simp] theorem State.rejectSetup_result (s : State) (c d : Bool) : (s.rejectSetup c d).result = s.result := by
  cases c <;> cases d <;> rfl
@[simp] theorem State.rejectSetup_wp (s : State) (c d : Bool) : (s.rejectSetup c d).wp = s.wp := by
  cases c <;> cases d <;> rfl
@[simp] theorem State.rejectSetup_hopcnt (s : State) (c d : Bool) : (s.rejectSetup c d).hopcnt = s.hopcnt := by
  cases c <;> cases d <;> rfl
@[simp] theorem State.rejectSetup_hist (s : State) (c d : Bool) : (s.rejectSetup c d).hist = s.hist := by
  cases c <;> cases d <;> rfl
@[simp] theorem State.rejectSetup_framecnt (s : State) (c d : Bool) : (s.rejectSetup c d).framecnt = s.framecnt := by
  cases c <;> cases d <;> rfl
@[simp] theorem State.rejectSetup_srate (s : State) (c d : Bool) : (s.rejectSetup c d).srate = s.srate := by
  cases c <;> cases d <;> rfl
@[simp] theorem State.rejectSetup_maxblk (s : State) (c d : Bool) : (s.rejectSetup c d).maxblk = s.maxblk := by
  cases c <;> cases d <;> rfl
@[simp] theorem State.rejectSetup_ring (s : State) (c d : Bool) : (s.rejectSetup c d).ring = s.ring := by
  cases c <;> cases d <;> rfl
@[simp] theorem State.rejectSetup_io (s : State) (c d : Bool) : (s.rejectSetup c d).io = s.io := by
  cases c <;> cases d <;> rfl
@[simp] theorem State.rejectSetup_lin (s : State) (c d : Bool) : (s.rejectSetup c d).lin = s.lin := by
  cases c <;> cases d <;> rfl
@[simp] theorem State.rejectSetup_cpx (s : State) (c d : Bool) : (s.rejectSetup c d).cpx = s.cpx := by
  cases c <;> cases d <;> rfl
@[simp] theorem State.rejectSetup_spec (s : State) (c d : Bool) : (s.rejectSetup c d).spec = s.spec := by
  cases c <;> cases d <;> rfl
@[simp] theorem State.rejectSetup_returned (s : State) (c d : Bool) : (s.rejectSetup c d).returned = s.returned := by
  cases c <;> cases d <;> rfl
@[simp] theorem State.rejectSetup_pending (s : State) (c d : Bool) : (s.rejectSetup c d).pending = s.pending := by
  cases c <;> cases d <;> rfl
@[simp] theorem State.rejectSetup_epoch (s : State) (c d : Bool) : (s.rejectSetup c d).epoch = s.epoch := by
  cases c <;> cases d <;> rfl
@[simp] theorem State.rejectSetup_life (s : State) (c d : Bool) : (s.rejectSetup c d).life = .cfgerr := rfl
@[simp] theorem State.rejectSetup_arr (s : State) (c d : Bool) (a : Arr) :
    (s.rejectSetup c d).arr a = s.arr a := by
  cases a <;> simp [State.arr]

end Sys2Proof.Machine
end

