-- ==== Sys2Proof/Laws/Ops.lean ====
section
/-!
SUPPORT. What each shared operation over the state can do, said once: reading and writing storage words
and rows, the ring primitives and the mask, errors, and the LIFE check.
-/

namespace Sys2Proof.Machine

open Sys2Proof

/-! ## Word numbers and the mask -/

/-- Word numbers of rows and indices are distinct, the index being 16 bits wide (20_memory.md R62). -/
theorem cellKey_inj {ch idx ch' idx' : Nat} (h : idx < 65536) (h' : idx' < 65536) :
    cellKey ch idx = cellKey ch' idx' ↔ ch = ch' ∧ idx = idx' := by
  unfold cellKey
  omega

theorem cap_pos (b : Build) : 0 < b.cap := Nat.two_pow_pos _

theorem cap_le (b : Build) : b.cap ≤ 32768 :=
  Nat.pow_le_pow_right (n := 2) (by decide) b.legal.1.2

/-- mask(p) = p mod C, because C is a power of two (00_scope.md R14). -/
theorem mask_eq_mod (b : Build) (p : Nat) : mask b p = p % b.cap := by
  unfold mask Build.cap
  exact Nat.and_two_pow_sub_one_eq_mod p b.log2c

theorem mask_lt (b : Build) (p : Nat) : mask b p < b.cap := by
  rw [mask_eq_mod]
  exact Nat.mod_lt _ (cap_pos b)

theorem mask_lt_65536 (b : Build) (p : Nat) : mask b p < 65536 := by
  have := mask_lt b p
  have := cap_le b
  omega

/-! ## Storage words -/

theorem State.peek_congr {s t : State} {a : Arr} (h : s.arr a = t.arr a) (ch k : Nat) :
    s.peek a ch k = t.peek a ch k := by
  simp [State.peek, h]

theorem State.read_congr {s t : State} {a : Arr} (h : s.arr a = t.arr a) (he : s.epoch = t.epoch)
    (ch k : Nat) : s.read a ch k = t.read a ch k := by
  simp [State.read, State.peek, h, he]

/-- A word that holds a value reads as it, with no draw. -/
theorem State.read_of_peek {s : State} {a : Arr} {ch k : Nat} {v : Word} (h : s.peek a ch k = some v) :
    s.read a ch k = v := by
  simp [State.read, h]

@[simp] theorem State.peek_write_self (s : State) (a : Arr) (ch k : Nat) (v : Word) :
    (s.write a ch k v).peek a ch k = some v := by
  simp [State.peek]

/-- What writing one storage word does to every storage word. -/
theorem State.peek_write (s : State) (a b : Arr) (ch k ch' k' : Nat) (v : Word) :
    (s.write a ch k v).peek b ch' k' =
      if b = a ∧ cellKey ch' k' = cellKey ch k then some v else s.peek b ch' k' := by
  by_cases hb : b = a
  · subst hb
    simp [State.peek, Memory.get_set]
  · simp [State.peek, State.write_arr_ne _ hb, hb]

/-! ## Rows -/

/-- The cells of one array after `n` words of a row are written. -/
def Memory.setRow (m : Memory) (ch n : Nat) (f : Nat → Word) : Memory :=
  (List.range n).foldl (fun m j => m.set (cellKey ch j) (f j)) m

theorem Memory.setRow_succ (m : Memory) (ch n : Nat) (f : Nat → Word) :
    m.setRow ch (n + 1) f = (m.setRow ch n f).set (cellKey ch n) (f n) := by
  simp [Memory.setRow, List.range_succ]

@[simp] theorem Memory.fill_setRow (m : Memory) (ch n : Nat) (f : Nat → Word) :
    (m.setRow ch n f).fill = m.fill := by
  induction n with
  | zero => rfl
  | succ n ih => simp [Memory.setRow_succ, ih]

theorem Memory.wf_setRow {m : Memory} (h : m.wf = true) (ch n : Nat) (f : Nat → Word) :
    (m.setRow ch n f).wf = true := by
  induction n with
  | zero => exact h
  | succ n ih =>
    rw [Memory.setRow_succ]
    exact Memory.wf_set ih _ _

/-- Writing a row: each of its words takes its value, and no other word changes. -/
theorem Memory.get_setRow (m : Memory) (ch : Nat) {n : Nat} (hn : n ≤ 65536) (f : Nat → Word)
    (ch' : Nat) {k : Nat} (hk : k < 65536) :
    (m.setRow ch n f).get (cellKey ch' k) =
      if ch' = ch ∧ k < n then some (f k) else m.get (cellKey ch' k) := by
  induction n with
  | zero => simp [Memory.setRow]
  | succ n ih =>
    rw [Memory.setRow_succ, Memory.get_set, ih (by omega)]
    simp only [cellKey_inj hk (show n < 65536 by omega)]
    by_cases hc : ch' = ch
    · by_cases hkn : k = n
      · subst hkn
        simp [hc]
      · have : k < n + 1 ↔ k < n := by omega
        simp [hc, hkn, this]
    · simp [hc]

/-- Writing a row changes one array and nothing else. -/
theorem State.writeRow_eq (s : State) (a : Arr) (ch n : Nat) (f : Nat → Word) :
    s.writeRow a ch n f = s.setArr a ((s.arr a).setRow ch n f) := by
  induction n with
  | zero => simp [State.writeRow, Memory.setRow]
  | succ n ih =>
    have h : s.writeRow a ch (n + 1) f = (s.writeRow a ch n f).write a ch n (f n) := by
      simp [State.writeRow, List.range_succ]
    rw [h, ih, Memory.setRow_succ]
    simp [State.write]

theorem State.peek_writeRow (s : State) (a b : Arr) (ch : Nat) {n : Nat} (hn : n ≤ 65536)
    (f : Nat → Word) (ch' : Nat) {k : Nat} (hk : k < 65536) :
    (s.writeRow a ch n f).peek b ch' k =
      if b = a ∧ ch' = ch ∧ k < n then some (f k) else s.peek b ch' k := by
  rw [State.writeRow_eq]
  by_cases hb : b = a
  · subst hb
    simp [State.peek, Memory.get_setRow _ _ hn f ch' hk]
  · simp [State.peek, State.setArr_arr_ne _ hb, hb]

/-! ## The ring primitives -/

/-- RingWrite writes exactly one word, in row ch only (40_ringbuffer.md R111). -/
theorem State.peek_ringWrite (s : State) (ch p : Nat) (v : Word) (b : Arr) (ch' : Nat) {k : Nat}
    (hk : k < 65536) :
    (s.ringWrite ch v p).peek b ch' k =
      if b = .ring ∧ ch' = ch ∧ k = mask s.build p then some v else s.peek b ch' k := by
  simp only [State.ringWrite, State.peek_write, cellKey_inj hk (mask_lt_65536 _ _)]

/-- RingWrite changes the ring and nothing else. -/
theorem State.ringWrite_eq (s : State) (ch p : Nat) (v : Word) :
    s.ringWrite ch v p = { s with ring := s.ring.set (cellKey ch (mask s.build p)) v } := rfl

/-! ## Errors and the LIFE check -/

theorem State.hasErr_raise (s : State) (e f : Err) :
    (s.raise e).hasErr f = (s.hasErr f || decide (f = e)) := by
  cases e <;> cases f <;> simp [State.hasErr, Err.bit]

/-- Raising an error twice is raising it once (60_exceptions.md R236). -/
@[simp] theorem State.raise_raise (s : State) (e : Err) : (s.raise e).raise e = s.raise e := by
  simp [State.raise, BitVec.or_assoc]

/-- What issuing a command can do: the command, or ERR_STATE and nothing else. -/
theorem State.issue_cases (s : State) (op : Op) (f : State → State) :
    (allowed op s.life = true ∧ s.issue op f = f s) ∨
      (allowed op s.life = false ∧ s.issue op f = s.raise .state) := by
  unfold State.issue
  cases h : allowed op s.life <;> simp

/-- What issuing a ring command can do. -/
theorem State.issueRing_cases (s : State) (op : Op) (ch : Nat) (f : State → State) :
    (ch < s.build.nch ∧ s.issueRing op ch f = s.issue op f) ∨
      (¬ ch < s.build.nch ∧ s.issueRing op ch f = s.raise .illegal) := by
  unfold State.issueRing
  by_cases h : ch < s.build.nch <;> simp [h]

@[simp] theorem allowed_nop (l : Life) : allowed .nop l = true := by cases l <;> rfl
@[simp] theorem allowed_teardown (l : Life) : allowed .teardown l = true := by cases l <;> rfl
@[simp] theorem allowed_clrerr (l : Life) : allowed .clrerr l = true := by cases l <;> rfl
theorem allowed_setup_iff (l : Life) : allowed .setup l = true ↔ l ≠ .streaming := by
  cases l <;> decide
theorem allowed_block_iff (l : Life) : allowed .block l = true ↔ l = .streaming := by
  cases l <;> decide
theorem allowed_ringWrite_iff (l : Life) : allowed .ringWrite l = true ↔ l = .streaming := by
  cases l <;> decide
theorem allowed_ringRead_iff (l : Life) : allowed .ringRead l = true ↔ l = .streaming := by
  cases l <;> decide

end Sys2Proof.Machine
end

