-- ==== Sys2Proof/Laws/Address.lean ====
section
/-!
SUPPORT. The fields of an address as numbers, and what an address selects, said once (20_memory.md R61 to
R63, 10_state.md R21, R44).
-/

namespace Sys2Proof.Machine

open Sys2Proof

theorem regionField_toNat (a : Word) : (regionField a).toNat = a.toNat / 2 ^ 24 := by
  simp [regionField, Nat.shiftRight_eq_div_pow]
  omega

theorem rowField_toNat (a : Word) : (rowField a).toNat = a.toNat / 2 ^ 18 % 64 := by
  simp [rowField, Nat.shiftRight_eq_div_pow]

theorem indexField_toNat (a : Word) : (indexField a).toNat = a.toNat / 4 % 65536 := by
  simp [indexField, Nat.shiftRight_eq_div_pow]

theorem low2_eq_zero_iff (a : Word) : a.extractLsb' 0 2 = 0 ↔ a.toNat % 4 = 0 := by
  rw [← BitVec.toNat_inj]
  simp

theorem low24_toNat (a : Word) : (a.extractLsb' 0 24).toNat = a.toNat % 2 ^ 24 := by simp

theorem Csr.ofOffset_iff (n : Nat) (r : Csr) : Csr.ofOffset n = some r ↔ n = r.offset := by
  constructor
  · intro h
    unfold Csr.ofOffset at h
    split at h <;> simp at h <;> subst h <;> rfl
  · rintro rfl
    cases r <;> rfl

theorem Csr.ofOffset_none_iff (n : Nat) : Csr.ofOffset n = none ↔ ∀ r : Csr, n ≠ r.offset := by
  rw [Option.eq_none_iff_forall_not_mem]
  exact forall_congr' fun r => not_congr (Csr.ofOffset_iff n r)

theorem Window.ofRegion_iff (n : Nat) (w : Window) : Window.ofRegion n = some w ↔ n = w.region := by
  constructor
  · intro h
    unfold Window.ofRegion at h
    split at h <;> simp at h <;> subst h <;> rfl
  · rintro rfl
    cases w <;> rfl

/-- What an address selects, by its number (20_memory.md R61 to R63). -/
inductive DecodeSpec (b : Build) (n : Nat) : Target → Prop
  | mis (h : n % 4 ≠ 0) : DecodeSpec b n .misaligned
  | csr (r : Csr) (h : n = r.offset) : DecodeSpec b n (.csr r)
  | nocsr (h : n % 4 = 0) (h' : n < 2 ^ 24) (hr : ∀ r : Csr, n ≠ r.offset) : DecodeSpec b n .unmapped
  | win (w : Window) (h : n % 4 = 0) (h1 : n / 2 ^ 24 = w.region) (h2 : n / 2 ^ 18 % 64 < b.nch)
      (h3 : n / 4 % 65536 < w.depth b) : DecodeSpec b n (.win w (n / 2 ^ 18 % 64) (n / 4 % 65536))
  | nowin (w : Window) (h : n % 4 = 0) (h1 : n / 2 ^ 24 = w.region)
      (h2 : ¬ (n / 2 ^ 18 % 64 < b.nch ∧ n / 4 % 65536 < w.depth b)) : DecodeSpec b n .unmapped
  | noregion (h : n % 4 = 0) (h1 : 5 ≤ n / 2 ^ 24) : DecodeSpec b n .unmapped

/-- decode(addr) does what `DecodeSpec` says (20_memory.md R63). -/
theorem decodeAddr_spec (b : Build) (a : Word) : DecodeSpec b a.toNat (decodeAddr b a) := by
  have ha := a.isLt
  unfold decodeAddr
  simp only [ne_eq, low2_eq_zero_iff, ← BitVec.toNat_inj (x := regionField a), regionField_toNat]
  split
  · rename_i h; exact .mis h
  · rename_i h
    rw [not_not] at h
    split
    · rename_i h2
      simp at h2
      unfold csrTarget
      rw [low24_toNat]
      have : a.toNat % 2 ^ 24 = a.toNat := by omega
      rw [this]
      split
      · rename_i r hr; exact .csr r ((Csr.ofOffset_iff _ _).1 hr)
      · rename_i hr; exact .nocsr h (by omega) ((Csr.ofOffset_none_iff _).1 hr)
    · rename_i h2
      simp at h2
      split
      · rename_i w hw
        have hw := (Window.ofRegion_iff _ _).1 hw
        unfold windowTarget
        rw [rowField_toNat, indexField_toNat]
        split
        · rename_i h3; exact .win w h hw h3.1 h3.2
        · rename_i h3; exact .nowin w h hw h3
      · rename_i hw
        refine .noregion h ?_
        by_contra hlt
        have : ∃ w : Window, a.toNat / 2 ^ 24 = w.region := by
          have : a.toNat / 2 ^ 24 = 1 ∨ a.toNat / 2 ^ 24 = 2 ∨ a.toNat / 2 ^ 24 = 3 ∨
              a.toNat / 2 ^ 24 = 4 := by omega
          rcases this with h | h | h | h
          · exact ⟨.io, h⟩
          · exact ⟨.lin, h⟩
          · exact ⟨.cpx, h⟩
          · exact ⟨.spec, h⟩
        obtain ⟨w, hw'⟩ := this
        rw [(Window.ofRegion_iff _ _).2 hw'] at hw
        cases hw

theorem Csr.offset_lt (r : Csr) : r.offset % 4 = 0 ∧ r.offset < 0x34 := by cases r <;> decide

theorem Window.region_lt (w : Window) : 1 ≤ w.region ∧ w.region ≤ 4 := by cases w <;> decide

theorem Csr.offset_inj {r r' : Csr} (h : r.offset = r'.offset) : r = r' := by
  cases r <;> cases r' <;> first | rfl | (exfalso; revert h; decide)

theorem Window.region_inj {w w' : Window} (h : w.region = w'.region) : w = w' := by
  cases w <;> cases w' <;> first | rfl | (exfalso; revert h; decide)

theorem Window.depth_le (b : Build) (w : Window) : w.depth b ≤ 65536 := by
  have := cap_le b
  have := b.legal.2.2.2.2
  cases w <;> simp [Window.depth] <;> omega

/-- The address of an existing window word is not reduced modulo 2^32. -/
theorem Window.addr_toNat (b : Build) (w : Window) {ch idx : Nat} (h1 : ch < b.nch)
    (h2 : idx < w.depth b) : (w.addr ch idx).toNat =
      w.region * 0x1000000 + ch * 0x40000 + 4 * idx := by
  have := Window.region_lt w
  have := Window.depth_le b w
  have := b.legal.2.1.2
  simp [Window.addr]
  omega

end Sys2Proof.Machine
end

