-- ==== Sys2Proof/Laws/Block.lean ====
section
/-!
SUPPORT. What the steps of BLOCK can do, said once each: ingestion, the counters, frame assembly, the
transform, and the end of the block.
-/

namespace Sys2Proof.Machine

open Sys2Proof

/-! ## Ingestion -/

/-- The first `m` channels of sample `i`. -/
def State.ingestChannels (s : State) (i m : Nat) : State :=
  (List.range m).foldl (fun t ch => t.ringWrite ch (t.read .io ch i) (t.wp.toNat + i)) s

theorem State.ingestSample_eq (s : State) (i : Nat) :
    s.ingestSample i = s.ingestChannels i s.build.nch := rfl

theorem State.ingestChannels_succ (s : State) (i m : Nat) :
    s.ingestChannels i (m + 1) =
      (s.ingestChannels i m).ringWrite m ((s.ingestChannels i m).read .io m i)
        ((s.ingestChannels i m).wp.toNat + i) := by
  simp [State.ingestChannels, List.range_succ]

/-- Ingestion of a sample changes the ring and nothing else. -/
theorem State.ingestChannels_ring (s : State) (i m : Nat) :
    s.ingestChannels i m = { s with ring := (s.ingestChannels i m).ring } := by
  induction m with
  | zero => rfl
  | succ m ih =>
    rw [State.ingestChannels_succ, ih]
    rfl

theorem State.peek_ingestChannels (s : State) (i m : Nat) (b : Arr) (ch : Nat) {k : Nat}
    (hk : k < 65536) :
    (s.ingestChannels i m).peek b ch k =
      if b = .ring ∧ ch < m ∧ k = mask s.build (s.wp.toNat + i) then some (s.read .io ch i)
      else s.peek b ch k := by
  induction m with
  | zero => simp [State.ingestChannels]
  | succ m ih =>
    have hb : (s.ingestChannels i m).build = s.build := by rw [State.ingestChannels_ring]
    have hw : (s.ingestChannels i m).wp = s.wp := by rw [State.ingestChannels_ring]
    have hr : (s.ingestChannels i m).read .io m i = s.read .io m i := by
      rw [State.ingestChannels_ring]
      rfl
    rw [State.ingestChannels_succ, State.peek_ringWrite _ _ _ _ _ _ hk, ih, hb, hw, hr]
    by_cases hc : ch = m
    · subst hc
      by_cases hbk : b = .ring ∧ k = mask s.build (s.wp.toNat + i)
      · simp [hbk]
      · have h1 : ¬ (b = .ring ∧ ch < ch + 1 ∧ k = mask s.build (s.wp.toNat + i)) := fun h =>
          hbk ⟨h.1, h.2.2⟩
        have h2 : ¬ (b = .ring ∧ ch < ch ∧ k = mask s.build (s.wp.toNat + i)) := fun h =>
          hbk ⟨h.1, h.2.2⟩
        have h3 : ¬ (b = .ring ∧ ch = ch ∧ k = mask s.build (s.wp.toNat + i)) := fun h =>
          hbk ⟨h.1, h.2.2⟩
        rw [if_neg h1, if_neg h2, if_neg h3]
    · have : ch < m + 1 ↔ ch < m := by omega
      simp [hc, this]

theorem State.ingest_zero (s : State) : s.ingest 0 = s := rfl

theorem State.ingest_succ (s : State) (n : Nat) : s.ingest (n + 1) = (s.ingest n).ingestSample n := by
  simp [State.ingest, List.range_succ]

/-- Ingestion changes the ring and nothing else (43_block_scheduler.md R162). -/
theorem State.ingest_ring (s : State) (n : Nat) : s.ingest n = { s with ring := (s.ingest n).ring } := by
  induction n with
  | zero => rfl
  | succ n ih =>
    rw [State.ingest_succ, ih, State.ingestSample_eq, State.ingestChannels_ring]

/-- What one more ingested sample does to every storage word (43_block_scheduler.md R162). -/
theorem State.peek_ingest_succ (s : State) (n : Nat) (b : Arr) (ch : Nat) {k : Nat} (hk : k < 65536) :
    (s.ingest (n + 1)).peek b ch k =
      if b = .ring ∧ ch < s.build.nch ∧ k = mask s.build (s.wp.toNat + n) then some (s.read .io ch n)
      else (s.ingest n).peek b ch k := by
  have hb : (s.ingest n).build = s.build := by rw [State.ingest_ring]
  have hw : (s.ingest n).wp = s.wp := by rw [State.ingest_ring]
  have hr : (s.ingest n).read .io ch n = s.read .io ch n := by
    rw [State.ingest_ring]
    rfl
  rw [State.ingest_succ, State.ingestSample_eq, State.peek_ingestChannels _ _ _ _ _ hk, hb, hw, hr]

theorem State.fill_ringWrite (s : State) (ch p : Nat) (v : Word) (a : Arr) :
    ((s.ringWrite ch v p).arr a).fill = (s.arr a).fill := by
  by_cases h : a = .ring
  · subst h
    simp [State.ringWrite]
  · simp [State.ringWrite, State.write_arr_ne _ h]

theorem State.fill_ingestChannels (s : State) (i m : Nat) (a : Arr) :
    ((s.ingestChannels i m).arr a).fill = (s.arr a).fill := by
  induction m with
  | zero => rfl
  | succ m ih => rw [State.ingestChannels_succ, State.fill_ringWrite, ih]

theorem State.fill_ingest (s : State) (n : Nat) (a : Arr) :
    ((s.ingest n).arr a).fill = (s.arr a).fill := by
  induction n with
  | zero => rfl
  | succ n ih => rw [State.ingest_succ, State.ingestSample_eq, State.fill_ingestChannels, ih]

/-! ## The counters -/

/-- WP after the counters are advanced is WP + n modulo C (43_block_scheduler.md R163). -/
theorem State.advance_wp_toNat (s : State) (n : Nat) :
    (s.advance n).wp.toNat = (s.wp.toNat + n) % s.build.cap := by
  have h := mask_lt_65536 s.build (s.wp.toNat + n)
  simp only [State.advance, BitVec.toNat_ofNat]
  rw [Nat.mod_eq_of_lt (by omega), mask_eq_mod]

/-- HIST after the counters are advanced: the sum, at most C + 1 (R163). -/
theorem State.advance_hist_toNat (s : State) (n : Nat) :
    (s.advance n).hist.toNat = min (s.hist.toNat + n) (s.build.cap + 1) := by
  have := cap_le s.build
  simp only [State.advance, BitVec.toNat_ofNat]
  exact Nat.mod_eq_of_lt (by omega)

/-- HOPCNT after the counters are advanced: the sum, at most 2^32 - 1 (R163). -/
theorem State.advance_hopcnt_toNat (s : State) (n : Nat) :
    (s.advance n).hopcnt.toNat = min (s.hopcnt.toNat + n) 0xFFFFFFFF := by
  simp only [State.advance, BitVec.toNat_ofNat]
  exact Nat.mod_eq_of_lt (by omega)

/-! ## The frame -/

/-- FrameAssemble writes lin[ch] and cpx[ch] and nothing else (41_frame_assembler.md R133). -/
theorem State.frameAssemble_eq (s : State) (ch cur : Nat) :
    s.frameAssemble ch cur =
      { s with
        lin := (s.frameAssemble ch cur).lin
        cpx := (s.frameAssemble ch cur).cpx } := by
  simp only [State.frameAssemble, State.assembleLinear, State.assembleComplex, State.writeRow_eq]
  rfl

/-- What FrameAssemble does to every storage word (R130, R131). -/
theorem State.peek_frameAssemble (s : State) (ch cur : Nat) (b : Arr) (ch' : Nat) {k : Nat}
    (hk : k < 65536) :
    (s.frameAssemble ch cur).peek b ch' k =
      if b = .lin ∧ ch' = ch ∧ k < s.build.cap then some (s.ringRead ch (cur + k))
      else if b = .cpx ∧ ch' = ch ∧ k < 2 * s.build.cap then
        some (if k % 2 = 0 then s.ringRead ch (cur + k / 2) else 0)
      else s.peek b ch' k := by
  have hcap := cap_le s.build
  have hb : (s.assembleLinear ch cur).build = s.build := by
    simp [State.assembleLinear, State.writeRow_eq]
  unfold State.frameAssemble State.assembleComplex
  rw [hb, State.peek_writeRow _ _ _ _ (by omega) _ _ hk]
  by_cases h : b = .cpx ∧ ch' = ch ∧ k < 2 * s.build.cap
  · obtain ⟨rfl, rfl, hk2⟩ := h
    have hl : (s.assembleLinear ch' cur).read .lin ch' (k / 2) = s.ringRead ch' (cur + k / 2) := by
      apply State.read_of_peek
      unfold State.assembleLinear
      rw [State.peek_writeRow _ _ _ _ (by omega) _ _ (by omega), if_pos ⟨rfl, rfl, by omega⟩]
    simp [hk2, hl]
  · rw [if_neg h]
    unfold State.assembleLinear
    rw [State.peek_writeRow _ _ _ _ (by omega) _ _ hk]
    simp [h]

theorem spectrumWord_eq {k : Nat} (v : Spectrum k) {j : Nat} (h : j < 2 * 2 ^ k) :
    spectrumWord v j = v[j] := by
  simp [spectrumWord, List.getD, h]

/-- Transform writes cpx[ch] and spec[ch] and nothing else (42_transform.md R148). -/
theorem State.transform_eq (s : State) (ch : Nat) :
    s.transform ch =
      { s with
        cpx := (s.transform ch).cpx
        spec := (s.transform ch).spec } := by
  simp only [State.transform, State.writeVector, State.writeRow_eq]
  rfl

/-- What Transform does to every storage word (42_transform.md R148). -/
theorem State.peek_transform (s : State) (ch : Nat) (b : Arr) (ch' : Nat) {k : Nat} (hk : k < 65536) :
    (s.transform ch).peek b ch' k =
      if b = .cpx ∧ ch' = ch ∧ k < 2 * s.build.cap then
        some (spectrumWord (Config.inv s.build.log2c (s.spectrum ch)) k)
      else if b = .spec ∧ ch' = ch ∧ k < 2 * s.build.cap then
        some (spectrumWord (s.spectrum ch) k)
      else s.peek b ch' k := by
  have hcap : 2 * 2 ^ s.build.log2c ≤ 65536 := by
    have := cap_le s.build
    unfold Build.cap at this
    omega
  unfold State.transform State.writeVector
  rw [State.peek_writeRow _ _ _ _ hcap _ _ hk, State.peek_writeRow _ _ _ _ hcap _ _ hk]
  rfl

/-- The vector a frame assembled at `cur` makes of cpx[ch]: the interleaved frame. -/
theorem State.cpxWord_frameAssemble (s : State) (ch cur : Nat) {j : Nat} (h : j < 2 * s.build.cap) :
    (s.frameAssemble ch cur).read .cpx ch j =
      if j % 2 = 0 then s.ringRead ch (cur + j / 2) else 0 := by
  have hcap := cap_le s.build
  apply State.read_of_peek
  rw [State.peek_frameAssemble _ _ _ _ _ (by omega)]
  simp [h]

theorem State.frameChannel_eq (s : State) (ch : Nat) :
    s.frameChannel ch =
      { s with
        lin := (s.frameChannel ch).lin
        cpx := (s.frameChannel ch).cpx
        spec := (s.frameChannel ch).spec } := by
  unfold State.frameChannel
  rw [State.transform_eq, State.frameAssemble_eq]

/-- The first `m` channels of FRAME_READY. -/
def State.frameChannels (s : State) (m : Nat) : State := (List.range m).foldl State.frameChannel s

theorem State.frameReady_eq (s : State) : s.frameReady = s.frameChannels s.build.nch := rfl

theorem State.frameChannels_succ (s : State) (m : Nat) :
    s.frameChannels (m + 1) = (s.frameChannels m).frameChannel m := by
  simp [State.frameChannels, List.range_succ]

/-- FRAME_READY writes lin, cpx and spec and nothing else (43_block_scheduler.md R165). -/
theorem State.frameChannels_frame (s : State) (m : Nat) :
    s.frameChannels m =
      { s with
        lin := (s.frameChannels m).lin
        cpx := (s.frameChannels m).cpx
        spec := (s.frameChannels m).spec } := by
  induction m with
  | zero => rfl
  | succ m ih =>
    rw [State.frameChannels_succ, State.frameChannel_eq, ih]

/-- SPEC's word `j` for a frame: of EDIT(ch, FWD(frame)) (42_transform.md R148). -/
def frameSpecWord (b : Build) (ch : Nat) (f : Nat → Word) (j : Nat) : Word :=
  spectrumWord (edit b ch (Config.fwd b.log2c (interleave b.log2c f))) j

/-- CPX's word `j` for a frame: of INV(EDIT(ch, FWD(frame))) (42_transform.md R148). -/
def frameCpxWord (b : Build) (ch : Nat) (f : Nat → Word) (j : Nat) : Word :=
  spectrumWord (Config.inv b.log2c (edit b ch (Config.fwd b.log2c (interleave b.log2c f)))) j

/-- The transform of a row that holds an interleaved frame. -/
theorem State.spectrum_words {t : State} {b : Build} (hb : t.build = b) (ch : Nat) (f : Nat → Word)
    (h : ∀ j, j < 2 * b.cap → t.read .cpx ch j = if j % 2 = 0 then f (j / 2) else 0) (j : Nat) :
    spectrumWord (t.spectrum ch) j = frameSpecWord b ch f j ∧
      spectrumWord (Config.inv t.build.log2c (t.spectrum ch)) j = frameCpxWord b ch f j := by
  subst hb
  have hv : t.cpxVector ch = interleave t.build.log2c f := by
    unfold State.cpxVector interleave
    congr 1
    funext j
    exact h j.val j.isLt
  simp only [State.spectrum, hv]
  exact ⟨rfl, rfl⟩

/-- What one channel of FRAME_READY does to every storage word (43_block_scheduler.md R165). -/
theorem State.peek_frameChannel (s : State) (m : Nat) (a : Arr) (ch : Nat) {k : Nat} (hk : k < 65536) :
    (s.frameChannel m).peek a ch k =
      if ch = m then
        if a = .lin ∧ k < s.build.cap then some (s.ringRead m (s.wp.toNat + k))
        else if a = .spec ∧ k < 2 * s.build.cap then
          some (frameSpecWord s.build m (fun j => s.ringRead m (s.wp.toNat + j)) k)
        else if a = .cpx ∧ k < 2 * s.build.cap then
          some (frameCpxWord s.build m (fun j => s.ringRead m (s.wp.toNat + j)) k)
        else s.peek a ch k
      else s.peek a ch k := by
  have hb : (s.frameAssemble m s.wp.toNat).build = s.build := by rw [State.frameAssemble_eq]
  obtain ⟨e1, e2⟩ := State.spectrum_words hb m (fun j => s.ringRead m (s.wp.toNat + j))
    (fun j hj => State.cpxWord_frameAssemble s m s.wp.toNat hj) k
  unfold State.frameChannel
  rw [State.peek_transform _ _ _ _ hk, State.peek_frameAssemble _ _ _ _ _ hk, e1, e2, hb]
  by_cases hc : ch = m
  · cases a <;> by_cases h1 : k < s.build.cap <;> by_cases h2 : k < 2 * s.build.cap <;>
      simp [hc, h1, h2]
  · simp [hc]

/-- FRAME_READY gives each channel what its own FrameAssemble and Transform give (R165). -/
theorem State.peek_frameChannels (s : State) (m : Nat) (a : Arr) (ch : Nat) {k : Nat}
    (hk : k < 65536) :
    (s.frameChannels m).peek a ch k =
      if ch < m then (s.frameChannel ch).peek a ch k else s.peek a ch k := by
  induction m with
  | zero => simp [State.frameChannels]
  | succ m ih =>
    have hb : (s.frameChannels m).build = s.build := by rw [State.frameChannels_frame]
    have hw : (s.frameChannels m).wp = s.wp := by rw [State.frameChannels_frame]
    have hr : ∀ c p, (s.frameChannels m).ringRead c p = s.ringRead c p := by
      intro c p
      rw [State.frameChannels_frame]
      rfl
    rw [State.frameChannels_succ, State.peek_frameChannel _ _ _ _ hk, ih]
    simp only [hr, hb, hw]
    by_cases hc : ch = m
    · subst hc
      rw [State.peek_frameChannel _ _ _ _ hk]
      simp
    · have : ch < m + 1 ↔ ch < m := by omega
      simp [hc, this]

/-! ## The whole block -/

/-- What the end of a block can do: a firing block, or one that stays in ACCUMULATING
(43_block_scheduler.md R164 to R167). -/
theorem State.finishBlock_cases (s : State) :
    (s.fires = true ∧
      s.finishBlock =
        { s with
          lin := s.frameReady.lin, cpx := s.frameReady.cpx, spec := s.frameReady.spec
          hopcnt := 0, framecnt := s.framecnt + 1, fired := true }) ∨
    (s.fires = false ∧ s.finishBlock = { s with fired := false }) := by
  unfold State.finishBlock
  cases h : s.fires
  · simp
  · refine .inl ⟨rfl, ?_⟩
    rw [State.frameReady_eq, State.frameChannels_frame]
    rfl

/-- What a BLOCK in STREAMING can do: ERR_BLKLEN, or the block (43_block_scheduler.md R160, R161). -/
theorem State.runBlock_cases (s : State) (n : Half) :
    (s.maxblk.toNat < n.toNat ∧ s.runBlock n = s.raise .blklen) ∨
    (n.toNat ≤ s.maxblk.toNat ∧
      s.runBlock n = ((s.ingest n.toNat).advance n.toNat).finishBlock) := by
  unfold State.runBlock
  by_cases h : s.maxblk.toNat < n.toNat
  · simp [h]
  · simp [h, not_lt.1 h]

end Sys2Proof.Machine
end

