-- ==== Sys2Proof/Laws/Bus.lean ====
section
/-!
SUPPORT. What the bus operations and the step can do, said once each.
-/

namespace Sys2Proof.Machine

open Sys2Proof

/-- What a bus read can do (20_memory.md R66). -/
theorem memRead_cases (addr : Word) (s : State) :
    ((decodeAddr s.build addr = .misaligned ∨ decodeAddr s.build addr = .unmapped) ∧
      memRead addr s = (0, s.raise .bus)) ∨
    (∃ r, decodeAddr s.build addr = .csr r ∧ memRead addr s = (s.readCsr r, s)) ∨
    (∃ w ch idx, decodeAddr s.build addr = .win w ch idx ∧
      memRead addr s = (s.read w.arr ch idx, s)) := by
  unfold memRead
  cases h : decodeAddr s.build addr <;> simp

/-- What a bus write can do (20_memory.md R67): a bus error, a command, ARG, or an IO word. -/
theorem memWrite_cases (addr v : Word) (s : State) :
    (decodeAddr s.build addr = .csr .cmd ∧ memWrite addr v s = executeCommand v s) ∨
    (decodeAddr s.build addr = .csr .arg ∧ memWrite addr v s = .next { s with arg := v }) ∨
    (∃ ch idx, decodeAddr s.build addr = .win .io ch idx ∧
      memWrite addr v s = .next (s.write .io ch idx v)) ∨
    (decodeAddr s.build addr ≠ .csr .cmd ∧ decodeAddr s.build addr ≠ .csr .arg ∧
      (∀ ch idx, decodeAddr s.build addr ≠ .win .io ch idx) ∧
      memWrite addr v s = .next (s.raise .bus)) := by
  unfold memWrite
  cases h : decodeAddr s.build addr with
  | misaligned => simp
  | unmapped => simp
  | csr r => cases r <;> simp [writeCsr]
  | win w ch idx => cases w <;> simp [writeWindow]

/-- CMD is a register at its address (10_state.md R21). -/
@[simp] theorem decodeAddr_cmdAddr (b : Build) : decodeAddr b cmdAddr = .csr .cmd := rfl

/-- A decoded command is performed by its own meaning. -/
theorem perform_eq_exec (d : Command) (s : State) : perform d s = exec d.toInstr s := by
  obtain ⟨op, ch, imm⟩ := d
  cases op <;> rfl

/-- A write to CMD issues the command of its data word (30_encoding.md R90). -/
theorem exec_busWr_cmd (w : Word) (s : State) :
    exec (.busWr cmdAddr w) s = executeCommand w s := rfl

/-- What issuing a command word can do: ERR_ILLEGAL alone, or the decoded command's meaning. -/
theorem executeCommand_cases (w : Word) (s : State) :
    ((∃ e, decodeCmd s.build w = .error e) ∧ executeCommand w s = .next (s.raise .illegal)) ∨
    (∃ d, decodeCmd s.build w = .ok d ∧ executeCommand w s = exec d.toInstr s) := by
  unfold executeCommand
  cases h : decodeCmd s.build w with
  | error e => exact .inl ⟨⟨e, rfl⟩, rfl⟩
  | ok d => exact .inr ⟨d, rfl, perform_eq_exec d s⟩

/-- What a step can do: hold the state, run the host's oldest transaction, or take a reset. -/
theorem step_cases (s : State) :
    (s.pending = [] ∧ step s = .next s) ∨
    (∃ t rest, s.pending = .txn t :: rest ∧ step s = exec (decodeTxn t) (s.take rest)) ∨
    (∃ rest, s.pending = .reset :: rest ∧ step s = .next (s.take rest).resetNow) := by
  unfold step
  cases h : s.pending with
  | nil => simp
  | cons e rest => cases e <;> simp

end Sys2Proof.Machine
end

