-- ==== Sys2Proof/Laws/Canonical.lean ====
section
/-!
SUPPORT. Every operation over the storage arrays keeps their canonical form, every one keeps what an
unlisted word reads as, and the arrays have the form at reset.
-/

namespace Sys2Proof.Machine

open Sys2Proof

/-- The storage has the canonical form at reset. -/
theorem reset_arr_wf (a : Arr) : (State.reset.arr a).wf = true := by
  cases a <;> rfl

theorem Canonical.congr {s t : State} (h : Canonical s) (e : ∀ a, t.arr a = s.arr a) : Canonical t :=
  fun a => by rw [e]; exact h a

theorem canonical_write {s : State} (h : Canonical s) (a : Arr) (ch k : Nat) (v : Word) :
    Canonical (s.write a ch k v) := by
  intro b
  by_cases hb : b = a
  · subst hb
    simp only [State.write, State.setArr_arr_self]
    exact Memory.wf_set (h _) _ _
  · rw [State.write_arr_ne _ hb]
    exact h b

theorem canonical_writeRow {s : State} (h : Canonical s) (a : Arr) (ch n : Nat) (f : Nat → Word) :
    Canonical (s.writeRow a ch n f) := by
  rw [State.writeRow_eq]
  intro b
  by_cases hb : b = a
  · subst hb
    simp only [State.setArr_arr_self]
    exact Memory.wf_setRow (h _) _ _ _
  · rw [State.setArr_arr_ne _ hb]
    exact h b

theorem canonical_ringWrite {s : State} (h : Canonical s) (ch p : Nat) (v : Word) :
    Canonical (s.ringWrite ch v p) :=
  canonical_write h _ _ _ _

theorem canonical_ingest {s : State} (h : Canonical s) (n : Nat) : Canonical (s.ingest n) := by
  have hc : ∀ (t : State) (i m : Nat), Canonical t → Canonical (t.ingestChannels i m) := by
    intro t i m ht
    induction m with
    | zero => exact ht
    | succ m ih =>
      rw [State.ingestChannels_succ]
      exact canonical_ringWrite ih _ _ _
  induction n with
  | zero => exact h
  | succ n ih =>
    rw [State.ingest_succ, State.ingestSample_eq]
    exact hc _ _ _ ih

theorem canonical_frameChannel {s : State} (h : Canonical s) (ch : Nat) :
    Canonical (s.frameChannel ch) := by
  unfold State.frameChannel State.transform State.writeVector State.frameAssemble
    State.assembleComplex State.assembleLinear
  exact canonical_writeRow (canonical_writeRow (canonical_writeRow (canonical_writeRow h _ _ _ _)
    _ _ _ _) _ _ _ _) _ _ _ _

theorem canonical_frameReady {s : State} (h : Canonical s) : Canonical s.frameReady := by
  rw [State.frameReady_eq]
  generalize s.build.nch = m
  induction m with
  | zero => exact h
  | succ m ih =>
    rw [State.frameChannels_succ]
    exact canonical_frameChannel ih m

theorem State.fill_write (s : State) (a b : Arr) (ch k : Nat) (v : Word) :
    ((s.write a ch k v).arr b).fill = (s.arr b).fill := by
  by_cases hb : b = a
  · subst hb
    simp [State.write]
  · rw [State.write_arr_ne _ hb]

theorem State.fill_writeRow (s : State) (a b : Arr) (ch n : Nat) (f : Nat → Word) :
    ((s.writeRow a ch n f).arr b).fill = (s.arr b).fill := by
  rw [State.writeRow_eq]
  by_cases hb : b = a
  · subst hb
    simp
  · rw [State.setArr_arr_ne _ hb]

theorem State.fill_frameReady (s : State) (b : Arr) : (s.frameReady.arr b).fill = (s.arr b).fill := by
  rw [State.frameReady_eq]
  generalize s.build.nch = m
  induction m with
  | zero => rfl
  | succ m ih =>
    rw [State.frameChannels_succ]
    unfold State.frameChannel State.transform State.writeVector State.frameAssemble
      State.assembleComplex State.assembleLinear
    simp only [State.fill_writeRow, ih]

end Sys2Proof.Machine
end

