-- ==== Sys2Proof/Laws/Decode.lean ====
section
/-!
SUPPORT. The fields of a command word built from its fields (30_encoding.md R91), and of a header (R100);
the fields as numbers; and what decode_cmd answers, said once (R95).
-/

namespace Sys2Proof

@[simp] theorem opField_cmdWord (op ch : BitVec 4) (imm : Half) : opField (cmdWord op ch imm) = op := by
  apply BitVec.eq_of_getLsbD_eq
  intro i hi
  simp only [cmdWord, opField, BitVec.getLsbD_extractLsb', BitVec.getLsbD_append]
  interval_cases i <;> simp

@[simp] theorem chField_cmdWord (op ch : BitVec 4) (imm : Half) : chField (cmdWord op ch imm) = ch := by
  apply BitVec.eq_of_getLsbD_eq
  intro i hi
  simp only [cmdWord, chField, BitVec.getLsbD_extractLsb', BitVec.getLsbD_append]
  interval_cases i <;> simp

@[simp] theorem rsvField_cmdWord (op ch : BitVec 4) (imm : Half) : rsvField (cmdWord op ch imm) = 0 := by
  apply BitVec.eq_of_getLsbD_eq
  intro i hi
  simp only [cmdWord, rsvField, BitVec.getLsbD_extractLsb', BitVec.getLsbD_append]
  interval_cases i <;> simp

@[simp] theorem immField_cmdWord (op ch : BitVec 4) (imm : Half) :
    immField (cmdWord op ch imm) = imm := by
  apply BitVec.eq_of_getLsbD_eq
  intro i hi
  simp only [cmdWord, immField, BitVec.getLsbD_extractLsb', BitVec.getLsbD_append]
  interval_cases i <;> simp

/-- A word is its four fields. -/
theorem cmdWord_fields (w : Word) :
    opField w ++ chField w ++ rsvField w ++ immField w = w := by
  apply BitVec.eq_of_getLsbD_eq
  intro i hi
  simp only [opField, chField, rsvField, immField, BitVec.getLsbD_append, BitVec.getLsbD_extractLsb']
  interval_cases i <;> simp

@[simp] theorem Txn.we_read (addr data : Word) : Txn.we ⟨0#1 ++ addr, data⟩ = false := by
  simp only [Txn.we, BitVec.getLsbD_append]
  simp

@[simp] theorem Txn.we_write (addr data : Word) : Txn.we ⟨1#1 ++ addr, data⟩ = true := by
  simp only [Txn.we, BitVec.getLsbD_append]
  simp

@[simp] theorem Txn.addr_header (we : BitVec 1) (addr data : Word) :
    Txn.addr ⟨we ++ addr, data⟩ = addr := by
  apply BitVec.eq_of_getLsbD_eq
  intro i hi
  simp only [Txn.addr, BitVec.getLsbD_extractLsb', BitVec.getLsbD_append]
  simp [hi]

/-- How an encoded instruction reaches the step: a command word as a write of it to CMD. -/
theorem decodeTxn_toTxn_cmd32 (w : Word) : decodeTxn (Encoding.cmd32 w).toTxn = .busWr cmdAddr w := by
  simp [decodeTxn, Encoding.toTxn]

/-! ## The fields as numbers -/

theorem opField_toNat (w : Word) : (opField w).toNat = w.toNat / 2 ^ 28 := by
  simp [opField, Nat.shiftRight_eq_div_pow]
  omega

theorem chField_toNat (w : Word) : (chField w).toNat = w.toNat / 2 ^ 24 % 2 ^ 4 := by
  simp [chField, Nat.shiftRight_eq_div_pow]

theorem rsvField_toNat (w : Word) : (rsvField w).toNat = w.toNat / 2 ^ 16 % 2 ^ 8 := by
  simp [rsvField, Nat.shiftRight_eq_div_pow]

theorem immField_toNat (w : Word) : (immField w).toNat = w.toNat % 2 ^ 16 := by
  simp [immField]

theorem low28_toNat (w : Word) : (w.extractLsb' 0 28).toNat = w.toNat % 2 ^ 28 := by
  simp

theorem mid12_toNat (w : Word) : (w.extractLsb' 16 12).toNat = w.toNat / 2 ^ 16 % 2 ^ 12 := by
  simp [Nat.shiftRight_eq_div_pow]

/-- When decode_cmd answers a command, and which (30_encoding.md R94, R95, R96). -/
theorem decodeCmd_ok_iff (b : Build) (w : Word) (d : Command) :
    decodeCmd b w = .ok d ↔
      match d.op with
      | .nop => w.toNat = 0 ∧ d.ch = 0 ∧ d.imm = 0
      | .setup => w.toNat / 2 ^ 28 = 1 ∧ w.toNat / 2 ^ 16 % 2 ^ 8 = 0 ∧ d.ch = chField w ∧
          d.imm = immField w
      | .block => w.toNat / 2 ^ 28 = 2 ∧ w.toNat / 2 ^ 16 % 2 ^ 12 = 0 ∧ d.ch = 0 ∧ d.imm = immField w
      | .teardown => w.toNat = 0x30000000 ∧ d.ch = 0 ∧ d.imm = 0
      | .ringWrite => w.toNat / 2 ^ 28 = 4 ∧ w.toNat / 2 ^ 16 % 2 ^ 8 = 0 ∧
          w.toNat / 2 ^ 24 % 2 ^ 4 < b.nch ∧ d.ch = chField w ∧ d.imm = immField w
      | .ringRead => w.toNat / 2 ^ 28 = 5 ∧ w.toNat / 2 ^ 16 % 2 ^ 8 = 0 ∧
          w.toNat / 2 ^ 24 % 2 ^ 4 < b.nch ∧ d.ch = chField w ∧ d.imm = immField w
      | .clrerr => w.toNat = 0x60000000 ∧ d.ch = 0 ∧ d.imm = 0 := by
  obtain ⟨op, ch, imm⟩ := d
  have hw := w.isLt
  unfold decodeCmd decodeRing legalIf
  rw [opField_toNat]
  simp only [beq_iff_eq, ← BitVec.toNat_inj (x := w.extractLsb' 0 28),
    ← BitVec.toNat_inj (x := rsvField w), ← BitVec.toNat_inj (x := w.extractLsb' 16 12), low28_toNat,
    mid12_toNat, rsvField_toNat, chField_toNat]
  split <;> rename_i hop
  all_goals (cases op <;> simp <;> (try split) <;> simp_all <;> try omega)
  all_goals (try split)
  all_goals (try (simp_all; done))
  all_goals (constructor <;> intro h <;> simp_all <;> try omega)

end Sys2Proof
end

