-- ==== Sys2Proof/Laws/Effect.lean ====
section
/-!
SUPPORT. What an instruction can do to the state, said once for all of them: `exec_effect`. An invariant
or a whole-machine rule follows by cases on `Effect`.
-/

namespace Sys2Proof.Machine

open Sys2Proof

/-- Every way an instruction can change the state, with the command it performs, if it performs one. -/
inductive Effect : Option Op → State → State → Prop where
  | nop (s) : Effect (some .nop) s s
  /-- A command refused by the LIFE check, or a RING command on no channel. -/
  | refused (s) (op : Op) (e : Err) (he : e = .state ∨ e = .illegal) : Effect (some op) s (s.raise e)
  | setupRejected (s : State) (c d : Bool) (hl : s.life ≠ .streaming) (hcd : c || d) :
      Effect (some .setup) s (s.rejectSetup c d)
  | setupAccepted (s : State) (m : Half) (hl : s.life ≠ .streaming) (hm : 1 ≤ m.toNat)
      (hi : m.toNat ≤ s.build.iod) : Effect (some .setup) s (s.acceptSetup m)
  | blockTooLong (s : State) : Effect (some .block) s (s.raise .blklen)
  | block (s : State) (n : Half) (hl : s.life = .streaming) (hn : n.toNat ≤ s.maxblk.toNat) :
      Effect (some .block) s ((s.ingest n.toNat).advance n.toNat).finishBlock
  | teardown (s : State) : Effect (some .teardown) s { s with life := .idle }
  | ringWrite (s : State) (ch p : Nat) (hl : s.life = .streaming) (hc : ch < s.build.nch) :
      Effect (some .ringWrite) s (s.ringWrite ch s.arg p)
  | ringRead (s : State) (v : Word) (hl : s.life = .streaming) :
      Effect (some .ringRead) s { s with result := v }
  | clrerr (s : State) : Effect (some .clrerr) s { s with errs := 0 }
  | illegalWord (s) : Effect none s (s.raise .illegal)
  | busError (s) : Effect none s (s.raise .bus)
  | answerError (s) : Effect none s ((s.raise .bus).answer 0)
  | answer (s) (v : Word) : Effect none s (s.answer v)
  | arg (s) (v : Word) : Effect none s { s with arg := v }
  | io (s : State) (ch i : Nat) (v : Word) (hc : ch < s.build.nch) (hi : i < s.build.iod) :
      Effect none s (s.write .io ch i v)

/-- The command an instruction performs, if it performs one. -/
def commandOp (b : Build) : Instr → Option Op
  | .nop => some .nop
  | .setup _ _ => some .setup
  | .block _ => some .block
  | .teardown => some .teardown
  | .ringWrite _ _ => some .ringWrite
  | .ringRead _ _ => some .ringRead
  | .clrerr => some .clrerr
  | .busRd _ => none
  | .busWr addr w =>
    if decodeAddr b addr = .csr .cmd then
      match decodeCmd b w with
      | .ok d => some d.op
      | .error _ => none
    else none

theorem effect_setup (s : State) (nch : Nat) (m : Half) :
    ∃ t, exec (.setup nch m) s = .next t ∧ Effect (some .setup) s t := by
  refine ⟨_, rfl, ?_⟩
  rcases s.issue_cases .setup (fun t => t.runSetup nch m) with ⟨ha, he⟩ | ⟨ha, he⟩
  · rw [he]
    have hl := (allowed_setup_iff _).1 ha
    simp only [State.runSetup]
    split
    · rename_i h
      exact .setupRejected s _ _ hl h
    · rename_i h
      simp only [Bool.or_eq_true, not_or, badBlkmax, beq_iff_eq, decide_eq_true_iff] at h
      exact .setupAccepted s m hl (by omega) (by omega)
  · rw [he]
    exact .refused s _ _ (.inl rfl)

theorem effect_block (s : State) (n : Half) :
    ∃ t, exec (.block n) s = .next t ∧ Effect (some .block) s t := by
  refine ⟨_, rfl, ?_⟩
  rcases s.issue_cases .block (fun t => t.runBlock n) with ⟨ha, he⟩ | ⟨ha, he⟩
  · rw [he]
    rcases s.runBlock_cases n with ⟨_, h⟩ | ⟨hn, h⟩ <;> simp only [h]
    · exact .blockTooLong s
    · exact .block s n ((allowed_block_iff _).1 ha) hn
  · rw [he]
    exact .refused s _ _ (.inl rfl)

theorem effect_ringWrite (s : State) (ch : Nat) (pos : Half) :
    ∃ t, exec (.ringWrite ch pos) s = .next t ∧ Effect (some .ringWrite) s t := by
  refine ⟨_, rfl, ?_⟩
  rcases s.issueRing_cases .ringWrite ch (fun t => t.ringWrite ch t.arg pos.toNat) with ⟨hc, h⟩ | ⟨_, h⟩
  · rw [h]
    rcases s.issue_cases .ringWrite (fun t => t.ringWrite ch t.arg pos.toNat) with ⟨ha, he⟩ | ⟨_, he⟩
    · rw [he]
      exact .ringWrite s ch _ ((allowed_ringWrite_iff _).1 ha) hc
    · rw [he]
      exact .refused s _ _ (.inl rfl)
  · rw [h]
    exact .refused s _ _ (.inr rfl)

theorem effect_ringRead (s : State) (ch : Nat) (pos : Half) :
    ∃ t, exec (.ringRead ch pos) s = .next t ∧ Effect (some .ringRead) s t := by
  refine ⟨_, rfl, ?_⟩
  rcases s.issueRing_cases .ringRead ch (fun t => { t with result := t.ringRead ch pos.toNat })
    with ⟨hc, h⟩ | ⟨_, h⟩
  · rw [h]
    rcases s.issue_cases .ringRead (fun t => { t with result := t.ringRead ch pos.toNat })
      with ⟨ha, he⟩ | ⟨_, he⟩
    · rw [he]
      exact .ringRead s _ ((allowed_ringRead_iff _).1 ha)
    · rw [he]
      exact .refused s _ _ (.inl rfl)
  · rw [h]
    exact .refused s _ _ (.inr rfl)

/-- What a decoded command can do. -/
theorem effect_command (d : Command) (s : State) :
    ∃ t, exec d.toInstr s = .next t ∧ Effect (some d.op) s t := by
  obtain ⟨op, ch, imm⟩ := d
  cases op with
  | nop => exact ⟨s, by simp [Command.toInstr, exec, execNop, State.issue], .nop s⟩
  | setup => exact effect_setup s _ imm
  | block => exact effect_block s imm
  | teardown =>
    exact ⟨_, by simp [Command.toInstr, exec, execTeardown, State.issue], .teardown s⟩
  | ringWrite => exact effect_ringWrite s _ imm
  | ringRead => exact effect_ringRead s _ imm
  | clrerr => exact ⟨_, by simp [Command.toInstr, exec, execClrerr, State.issue], .clrerr s⟩

/-- A window word that an address selects exists (20_memory.md R62). -/
theorem decodeAddr_win {b : Build} {addr : Word} {w : Window} {ch idx : Nat}
    (h : decodeAddr b addr = .win w ch idx) : ch < b.nch ∧ idx < w.depth b := by
  unfold decodeAddr at h
  split at h
  · simp at h
  · split at h
    · unfold csrTarget at h
      split at h <;> simp at h
    · split at h
      · unfold windowTarget at h
        split at h
        · rename_i hc
          simp only [Target.win.injEq] at h
          obtain ⟨rfl, rfl, rfl⟩ := h
          exact hc
        · simp at h
      · simp at h

/-- What an instruction can do: it ends in a next state, by one of the effects. -/
theorem exec_effect (i : Instr) (s : State) :
    ∃ t, exec i s = .next t ∧ Effect (commandOp s.build i) s t := by
  cases i with
  | nop => exact effect_command ⟨.nop, 0, 0⟩ s
  | setup nch m => exact effect_setup s nch m
  | block n => exact effect_block s n
  | teardown => exact effect_command ⟨.teardown, 0, 0⟩ s
  | ringWrite ch pos => exact effect_ringWrite s ch pos
  | ringRead ch pos => exact effect_ringRead s ch pos
  | clrerr => exact effect_command ⟨.clrerr, 0, 0⟩ s
  | busRd addr =>
    refine ⟨_, rfl, ?_⟩
    rcases memRead_cases addr s with ⟨_, h⟩ | ⟨r, _, h⟩ | ⟨w, ch, idx, _, h⟩ <;> rw [h]
    · exact .answerError s
    · exact .answer s _
    · exact .answer s _
  | busWr addr v =>
    show ∃ t, memWrite addr v s = .next t ∧ _
    rcases memWrite_cases addr v s with ⟨ha, h⟩ | ⟨ha, h⟩ | ⟨ch, idx, ha, h⟩ | ⟨ha, _, _, h⟩ <;>
      rw [h]
    · rcases executeCommand_cases v s with ⟨⟨e, hd⟩, he⟩ | ⟨d, hd, he⟩ <;> rw [he]
      · exact ⟨_, rfl, by simp only [commandOp, ha, hd]; exact .illegalWord s⟩
      · simp only [commandOp, ha, hd]
        exact effect_command d s
    · exact ⟨_, rfl, by simp only [commandOp, ha]; exact .arg s v⟩
    · exact ⟨_, rfl, by
        simp only [commandOp, ha]
        exact .io s ch idx v (decodeAddr_win ha).1 (decodeAddr_win ha).2⟩
    · exact ⟨_, rfl, by simp only [commandOp, ha]; exact .busError s⟩

/-- The same from the answer. -/
theorem effect_of_exec {i : Instr} {s t : State} (h : exec i s = .next t) :
    Effect (commandOp s.build i) s t := by
  obtain ⟨u, hu, he⟩ := exec_effect i s
  rw [h] at hu
  cases hu
  exact he

end Sys2Proof.Machine
end

