-- ==== Sys2Proof/Laws/PerInstr.lean ====
section
/-!
SUPPORT. Statements about every instruction, made per constructor. `EncodesRow`: the encoding of an
instruction lies in its row of the opcode table, that is, it has the row's fixed bits (30_encoding.md
R94, R100).
-/

namespace Sys2Proof.Laws

open Sys2Proof

theorem cmdWord_and_rowMask (op ch : BitVec 4) (imm : Half) :
    cmdWord op ch imm &&& 0xF0FF0000#32 = op ++ 0#28 := by
  apply BitVec.eq_of_getLsbD_eq
  intro i hi
  simp only [cmdWord, BitVec.getLsbD_and, BitVec.getLsbD_append]
  interval_cases i <;> simp

namespace EncodesRow

/-- The row's command, and the fixed bit of a transaction's row. -/
def Statement (i : Instr) : Prop :=
  match i with
  | .nop => ∃ w, encode i = .cmd32 w ∧ w &&& Op.nop.maskWord = Op.nop.matchWord
  | .setup _ _ => ∃ w, encode i = .cmd32 w ∧ w &&& Op.setup.maskWord = Op.setup.matchWord
  | .block _ => ∃ w, encode i = .cmd32 w ∧ w &&& Op.block.maskWord = Op.block.matchWord
  | .teardown => ∃ w, encode i = .cmd32 w ∧ w &&& Op.teardown.maskWord = Op.teardown.matchWord
  | .ringWrite _ _ => ∃ w, encode i = .cmd32 w ∧ w &&& Op.ringWrite.maskWord = Op.ringWrite.matchWord
  | .ringRead _ _ => ∃ w, encode i = .cmd32 w ∧ w &&& Op.ringRead.maskWord = Op.ringRead.matchWord
  | .clrerr => ∃ w, encode i = .cmd32 w ∧ w &&& Op.clrerr.maskWord = Op.clrerr.matchWord
  | .busRd _ => ∃ h d, encode i = .bus33 h d ∧ h.getLsbD 32 = false
  | .busWr _ _ => ∃ h d, encode i = .bus33 h d ∧ h.getLsbD 32 = true

theorem nop : Statement .nop := ⟨_, rfl, by decide⟩

theorem setup (nch : Nat) (maxblk : Half) : Statement (.setup nch maxblk) :=
  ⟨_, rfl, (cmdWord_and_rowMask 1 _ _).trans (by decide)⟩

theorem block (n : Half) : Statement (.block n) := by
  refine ⟨_, rfl, ?_⟩
  apply BitVec.eq_of_getLsbD_eq
  intro i hi
  simp only [cmdWord, Op.maskWord, Op.matchWord, BitVec.getLsbD_and, BitVec.getLsbD_append]
  interval_cases i <;> simp

theorem teardown : Statement .teardown := ⟨_, rfl, by decide⟩

theorem ringWrite (ch : Nat) (pos : Half) : Statement (.ringWrite ch pos) :=
  ⟨_, rfl, (cmdWord_and_rowMask 4 _ _).trans (by decide)⟩

theorem ringRead (ch : Nat) (pos : Half) : Statement (.ringRead ch pos) :=
  ⟨_, rfl, (cmdWord_and_rowMask 5 _ _).trans (by decide)⟩

theorem clrerr : Statement .clrerr := ⟨_, rfl, by decide⟩

theorem busRd (addr : Word) : Statement (.busRd addr) :=
  ⟨_, _, rfl, by simp only [BitVec.getLsbD_append]; simp⟩

theorem busWr (addr data : Word) : Statement (.busWr addr data) :=
  ⟨_, _, rfl, by simp only [BitVec.getLsbD_append]; simp⟩

end EncodesRow

end Sys2Proof.Laws
end

