-- ==== Sys2Proof/Laws/Reference.lean ====
section
/-!
SUPPORT. The facts about the exact reference transforms of 42_transform.md R150: impulse, constant, real
frame, and that the inverse undoes the forward transform. They say nothing about FWD and INV.
-/

namespace Sys2Proof.Machine

open Sys2Proof Complex

/-- The basic C-th root of unity to the power `d`. -/
noncomputable def dftRoot (C : Nat) (d : ℤ) : ℂ := exp (2 * Real.pi * I * d / C)

theorem dftRoot_add (C : Nat) (a b : ℤ) : dftRoot C (a + b) = dftRoot C a * dftRoot C b := by
  unfold dftRoot
  rw [← exp_add]
  congr 1
  push_cast
  ring

theorem dftRoot_zero (C : Nat) : dftRoot C 0 = 1 := by
  simp [dftRoot]

theorem dftRoot_nat_mul (C : Nat) (k : Nat) (d : ℤ) : dftRoot C (k * d) = dftRoot C d ^ k := by
  unfold dftRoot
  rw [← exp_nat_mul]
  congr 1
  push_cast
  ring

theorem dftRoot_eq_one_iff {C : Nat} (hC : 0 < C) (d : ℤ) : dftRoot C d = 1 ↔ (C : ℤ) ∣ d := by
  have hc : (C : ℂ) ≠ 0 := by exact_mod_cast hC.ne'
  have hpi : (2 * Real.pi * I : ℂ) ≠ 0 := by simp [Real.pi_ne_zero, I_ne_zero]
  unfold dftRoot
  rw [exp_eq_one_iff]
  constructor
  · rintro ⟨n, hn⟩
    refine ⟨n, ?_⟩
    have h : (2 * Real.pi * I : ℂ) * d = (2 * Real.pi * I) * (C * n) := by
      field_simp at hn
      linear_combination (2 * Real.pi * I : ℂ) * hn
    exact_mod_cast mul_left_cancel₀ hpi h
  · rintro ⟨n, rfl⟩
    refine ⟨n, ?_⟩
    push_cast
    field_simp

/-- Powers of a root of unity sum to C or to 0. -/
theorem sum_dftRoot {C : Nat} (hC : 0 < C) (d : ℤ) :
    ∑ k ∈ Finset.range C, dftRoot C (k * d) = if (C : ℤ) ∣ d then (C : ℂ) else 0 := by
  simp only [dftRoot_nat_mul]
  split
  · rename_i h
    simp [(dftRoot_eq_one_iff hC d).2 h]
  · rename_i h
    have hne : dftRoot C d ≠ 1 := fun e => h ((dftRoot_eq_one_iff hC d).1 e)
    have hpow : dftRoot C d ^ C = 1 := by
      rw [← dftRoot_nat_mul, dftRoot_eq_one_iff hC]
      exact Dvd.intro d rfl
    rw [geom_sum_eq hne, hpow]
    simp

theorem forward_eq {C : Nat} {z Z : Nat → ℂ} (h : IsForwardDft C z Z) {k : Nat} (hk : k < C) :
    Z k = ∑ n ∈ Finset.range C, z n * dftRoot C (n * (-k)) := by
  rw [h k hk]
  refine Finset.sum_congr rfl fun n _ => ?_
  unfold dftRoot
  congr 2
  push_cast
  ring

theorem inverse_eq {C : Nat} {Z z : Nat → ℂ} (h : IsInverseDft C Z z) {n : Nat} (hn : n < C) :
    z n = (1 / C) * ∑ k ∈ Finset.range C, Z k * dftRoot C (k * n) := by
  rw [h n hn]
  congr 1
  refine Finset.sum_congr rfl fun k _ => ?_
  unfold dftRoot
  congr 2
  push_cast
  ring

/-- R150 (a): a unit impulse at n0. -/
theorem forward_impulse {C n0 : Nat} {Z : Nat → ℂ} (hn : n0 < C)
    (h : IsForwardDft C (fun n => if n = n0 then 1 else 0) Z) {k : Nat} (hk : k < C) :
    Z k = exp (-(2 * Real.pi * I * k * n0 / C)) := by
  rw [h k hk, Finset.sum_eq_single n0]
  · simp
  · intro m _ hm
    simp [hm]
  · intro hm
    exact absurd (Finset.mem_range.2 hn) hm

/-- R150 (b): a constant frame. -/
theorem forward_constant {C : Nat} {a : ℂ} {Z : Nat → ℂ} (h : IsForwardDft C (fun _ => a) Z)
    {k : Nat} (hk : k < C) : Z k = if k = 0 then C * a else 0 := by
  have hC : 0 < C := by omega
  rw [forward_eq h hk, ← Finset.mul_sum, sum_dftRoot hC]
  have hd : (C : ℤ) ∣ -(k : ℤ) ↔ k = 0 := by
    rw [dvd_neg]
    constructor
    · intro hd
      exact Nat.eq_zero_of_dvd_of_lt (by exact_mod_cast hd) hk
    · rintro rfl
      simp
  simp only [hd]
  split
  · ring
  · ring

/-- R150 (c): a real frame has a Hermitian spectrum. -/
theorem forward_real {C : Nat} {z Z : Nat → ℂ} (h : IsForwardDft C z Z) (hz : ∀ n < C, (z n).im = 0)
    {k : Nat} (hk : 0 < k)
    (hkC : k < C) : Z (C - k) = (starRingEnd ℂ) (Z k) := by
  have hC : 0 < C := by omega
  rw [forward_eq h (by omega : C - k < C), forward_eq h hkC, map_sum]
  refine Finset.sum_congr rfl fun n hn => ?_
  have hzn : (starRingEnd ℂ) (z n) = z n :=
    conj_eq_iff_im.2 (hz n (Finset.mem_range.1 hn))
  have hconj : ∀ d : ℤ, (starRingEnd ℂ) (dftRoot C d) = dftRoot C (-d) := by
    intro d
    unfold dftRoot
    rw [← exp_conj]
    congr 1
    simp [conj_ofReal, map_ofNat]
  rw [map_mul, hzn, hconj]
  congr 1
  have hsplit : (n : ℤ) * (-((C - k : Nat) : ℤ)) = -(n * (-k)) + (C : ℤ) * (-n) := by
    push_cast [Nat.cast_sub hkC.le]
    ring
  have hone : dftRoot C ((C : ℤ) * (-n)) = 1 := (dftRoot_eq_one_iff hC _).2 (Dvd.intro _ rfl)
  rw [hsplit, dftRoot_add, hone, mul_one]

/-- R150 (d): under the reference the inverse undoes the forward transform exactly. -/
theorem inverse_forward {C : Nat} {z Z x : Nat → ℂ} (h : IsForwardDft C z Z) (h' : IsInverseDft C Z x)
    {n : Nat} (hn : n < C) : x n = z n := by
  have hC : 0 < C := by omega
  have hc : (C : ℂ) ≠ 0 := by exact_mod_cast hC.ne'
  have hswap : ∑ k ∈ Finset.range C, Z k * dftRoot C (k * n) =
      ∑ m ∈ Finset.range C, z m * ∑ k ∈ Finset.range C, dftRoot C (k * (n - m)) := by
    rw [Finset.sum_congr rfl fun k hk => by rw [forward_eq h (Finset.mem_range.1 hk), Finset.sum_mul],
      Finset.sum_comm]
    refine Finset.sum_congr rfl fun m _ => ?_
    rw [Finset.mul_sum]
    refine Finset.sum_congr rfl fun k _ => ?_
    rw [mul_assoc, ← dftRoot_add]
    congr 2
    ring
  have hd : ∀ m < C, ((C : ℤ) ∣ (n : ℤ) - m ↔ m = n) := by
    intro m hm
    constructor
    · rintro ⟨q, hq⟩
      have hq0 : q = 0 := by
        by_contra hne
        rcases lt_or_gt_of_ne hne with hq' | hq'
        · have : (C : ℤ) * q ≤ (C : ℤ) * (-1) := mul_le_mul_of_nonneg_left (by omega) (by omega)
          omega
        · have : (C : ℤ) * 1 ≤ (C : ℤ) * q := mul_le_mul_of_nonneg_left (by omega) (by omega)
          omega
      subst hq0
      omega
    · rintro rfl
      simp
  rw [inverse_eq h' hn, hswap, Finset.sum_eq_single n]
  · rw [sum_dftRoot hC, if_pos (by simp)]
    field_simp
  · intro m hm hne
    rw [sum_dftRoot hC, if_neg fun hdv => hne ((hd m (Finset.mem_range.1 hm)).1 hdv), mul_zero]
  · intro hm
    exact absurd (Finset.mem_range.2 hn) hm

end Sys2Proof.Machine
end

