-- ==== Sys2Proof/Machine/Assembler.lean ====
section
/-!
DEFINITION. The host-side statements (30_encoding.md R101) and pseudo-instructions (R102), as data, and
the transactions they assemble to. The text of a statement and its comments are not modelled (log 14).
-/

namespace Sys2Proof.Machine

open Sys2Proof

/-- A statement of the assembly syntax, its operands as written. -/
inductive Stmt where
  | rd (addr : Nat)
  | wr (addr data : Nat)
  | nop
  | setup (nch maxblk : Nat)
  | block (n : Nat)
  | teardown
  | ringWr (ch pos : Nat)
  | ringRd (ch pos : Nat)
  | clrerr
  | setupSr (nch maxblk srate : Nat)
  | ringPut (ch pos word : Nat)
  | ringGet (ch pos : Nat)
  | ioSt (ch i word : Nat)
  | ld (w : Window) (ch i : Nat)
  deriving DecidableEq, Repr

/-- The transaction of an instruction. -/
def txnOf (i : Instr) : Txn := (encode i).toTxn

/-- `rd addr` (R101). -/
def asmRd (addr : Nat) : Option (List Txn) :=
  if addr < 2 ^ 32 then some [txnOf (.busRd (BitVec.ofNat 32 addr))] else none

/-- `wr addr, data` (R101). -/
def asmWr (addr data : Nat) : Option (List Txn) :=
  if addr < 2 ^ 32 ∧ data < 2 ^ 32 then
    some [txnOf (.busWr (BitVec.ofNat 32 addr) (BitVec.ofNat 32 data))]
  else none

/-- `setup nch, maxblk`: nch in 1..16, maxblk in 0..65535 (R101). -/
def asmSetup (nch maxblk : Nat) : Option (List Txn) :=
  if 1 ≤ nch ∧ nch ≤ 16 ∧ maxblk < 65536 then some [txnOf (.setup nch (BitVec.ofNat 16 maxblk))]
  else none

/-- `ring.wr ch, pos`: ch in 0..15, pos in 0..65535; a channel that does not exist is left to the
hardware (R101). -/
def asmRingWr (ch pos : Nat) : Option (List Txn) :=
  if ch < 16 ∧ pos < 65536 then some [txnOf (.ringWrite ch (BitVec.ofNat 16 pos))] else none

/-- `ring.rd ch, pos` (R101). -/
def asmRingRd (ch pos : Nat) : Option (List Txn) :=
  if ch < 16 ∧ pos < 65536 then some [txnOf (.ringRead ch (BitVec.ofNat 16 pos))] else none

/-- One after the other; rejected if either is. -/
def asmSeq (a b : Option (List Txn)) : Option (List Txn) :=
  match a, b with
  | some x, some y => some (x ++ y)
  | _, _ => none

/-- The byte address of a window word (R102). -/
def asmWindow (w : Window) (ch i : Nat) : Nat := w.region * 0x1000000 + ch * 0x40000 + 4 * i

/-- The transactions of a statement; `none` where an assembler rejects an operand (R101, R102). -/
def assemble : Stmt → Option (List Txn)
  | .rd addr => asmRd addr
  | .wr addr data => asmWr addr data
  | .nop => some [txnOf .nop]
  | .setup nch maxblk => asmSetup nch maxblk
  | .block n => if n < 65536 then some [txnOf (.block (BitVec.ofNat 16 n))] else none
  | .teardown => some [txnOf .teardown]
  | .ringWr ch pos => asmRingWr ch pos
  | .ringRd ch pos => asmRingRd ch pos
  | .clrerr => some [txnOf .clrerr]
  | .setupSr nch maxblk srate => asmSeq (asmWr Csr.arg.offset srate) (asmSetup nch maxblk)
  | .ringPut ch pos word => asmSeq (asmWr Csr.arg.offset word) (asmRingWr ch pos)
  | .ringGet ch pos => asmSeq (asmRingRd ch pos) (asmRd Csr.result.offset)
  | .ioSt ch i word => asmWr (asmWindow .io ch i) word
  | .ld w ch i => asmRd (asmWindow w ch i)

/-- The transactions of a program, one statement after the other. -/
def assembleAll : List Stmt → Option (List Txn)
  | [] => some []
  | i :: rest => asmSeq (assemble i) (assembleAll rest)

end Sys2Proof.Machine
end

