-- ==== Sys2Proof/Tests/Slice0.lean ====
section
/-!
SUPPORT. Tests: what WellFormed refuses, the decoding of words written out from the encoding, single
steps against the vectors of 95_test_vectors.md, and for each statement with hypotheses a state that
meets them. A test's source stands in its comment.
-/

namespace Sys2Proof.Tests

open Sys2Proof Sys2Proof.Machine

/-! ## Helpers -/

/-- The build of T-RING-11: C = 4, NCH = 1, HOP = 2, IOD = 8. -/
def small : Build := { log2c := 2, nch := 1, hop := 2, iod := 8, edit := .identity, legal := by decide }

/-- The state after an instruction that answers a next state. -/
def after (i : Instr) (s : State) : State :=
  match exec i s with
  | .next t => t
  | .fault _ => s
  | .refused _ => s

/-- The small build after a SETUP of blocks of at most 6. -/
def ready : State := after (.setup 1 6) (State.resetOf small)

/-- The default build after `setup 2, 64`. -/
def ready2 : State := after (.setup 2 64) State.reset

/-- `ready` with io[0][0..5] = 1.0 to 6.0 (T-RING-11). -/
def loaded : State :=
  { ready with
    io := ⟨some 0, [(0, 0x3F800000), (1, 0x40000000), (2, 0x40400000), (3, 0x40800000),
      (4, 0x40A00000), (5, 0x40C00000)]⟩ }

/-- `loaded` after `block 6`, which fires. -/
def fired6 : State := after (.block 6) loaded

/-- A state with one event pending. -/
def withEvents (s : State) (l : List Event) : State := { s with pending := l }

/-! ## WellFormed: a term that each check refuses -/

theorem test_wf_setup_zero : wellFormed Build.default (.setup 0 64) = false := by decide
theorem test_wf_setup_seventeen : wellFormed Build.default (.setup 17 64) = false := by decide
theorem test_wf_ringWrite_row : wellFormed Build.default (.ringWrite 2 0) = false := by decide
theorem test_wf_ringRead_row : wellFormed Build.default (.ringRead 2 0) = false := by decide

/-! ## Decoding: words written out from 30_encoding.md R91 and R100 -/

/-- OP 0, T-ENC-1. -/
theorem test_decode_nop : decodeTableWord 32 0b00000000000000000000000000000000 = some .nop := by decide
/-- OP 1, CH 15, RSV 0, IMM 0xFFFF: T-ENC-4. -/
theorem test_decode_setup :
    decodeTableWord 32 0b00011111000000001111111111111111 = some (.setup 16 0xFFFF) := by decide
/-- OP 2, IMM 0xFFFF: T-ENC-6. -/
theorem test_decode_block :
    decodeTableWord 32 0b00100000000000001111111111111111 = some (.block 0xFFFF) := by decide
/-- OP 3. -/
theorem test_decode_teardown :
    decodeTableWord 32 0b00110000000000000000000000000000 = some .teardown := by decide
/-- OP 4, CH 1, IMM 0xFFFF: T-ENC-10. -/
theorem test_decode_ringWrite :
    decodeTableWord 32 0b01000001000000001111111111111111 = some (.ringWrite 1 0xFFFF) := by decide
/-- OP 5, CH 1, IMM 0x01FF: T-ENC-12. -/
theorem test_decode_ringRead :
    decodeTableWord 32 0b01010001000000000000000111111111 = some (.ringRead 1 0x1FF) := by decide
/-- OP 6: T-ENC-14. -/
theorem test_decode_clrerr :
    decodeTableWord 32 0b01100000000000000000000000000000 = some .clrerr := by decide
/-- WE 0, ADDR 0x0000000C: `rd STATUS`. -/
theorem test_decode_busRd :
    decodeTableWord 40 0b000000000000000000000000000001100 = some (.busRd 0xC) := by decide
/-- WE 1, ADDR 0x01040014 (R100), and the data phase in the word after the header's five bytes. -/
theorem test_decode_busWr :
    decodeTableWord 72 (0b100000001000001000000000000010100 + 0x3F800000 * 2 ^ 40) =
      some (.busWr 0x01040014 0x3F800000) := by decide
/-- T-ENC-2, 5, 7, 8, 9, 11, 13, 15 and 16. -/
theorem test_decode_illegal :
    ∀ w ∈ [0x00000001, 0x10800040, 0x20100000, 0x30000001, 0x31000000, 0x4F000000, 0x52000000, 0x6000FFFF,
      0x80000000, 0xA5A5A5A5, 0xFFFFFFFF], decodeTableWord 32 w = none := by decide
/-- R97: which check refuses. -/
theorem test_decode_reasons :
    decode Build.default (.cmd32 0x70000000) = .error .reservedOpcode ∧
      decode Build.default (.cmd32 0x50010005) = .error .mustBeZero ∧
      decode Build.default (.cmd32 0x52000005) = .error .noSuchChannel := ⟨rfl, rfl, rfl⟩
/-- 30_encoding.md R102: `ring.put` is a write of ARG and a `ring.wr`. -/
theorem test_assemble_ringPut :
    assemble (.ringPut 1 517 0x3F800000) =
      some [⟨0x100000014, 0x3F800000⟩, ⟨0x100000010, 0x41000205⟩] := by decide

/-! ## Single steps -/

/-- T-BUS-26: a write of NOP to CMD changes nothing. -/
theorem test_nop : after (.busWr 0x10 0) State.reset = State.reset := by decide
/-- R191, R193: SRATE takes ARG, MAXBLK the operand, LIFE is STREAMING. -/
theorem test_setup :
    (let t := after (.setup 2 64) { State.reset with arg := 44100 }
     (t.srate, t.maxblk, t.life, t.arg)) = (44100, 64, .streaming, 44100) := by decide
/-- R192: SETUP with one channel and 0 samples on the default build: both bits, CFGERR. -/
theorem test_setup_rejected :
    (after (.setup 1 0) State.reset).readCsr .status = 0x3002 := by decide
/-- T-RING-11: WP = 2, and the ring read from WP gives 3.0, 4.0, 5.0, 6.0. -/
theorem test_block :
    (fired6.readCsr .wp, fired6.history 0) =
      (2, [0x40400000, 0x40800000, 0x40A00000, 0x40C00000]) := by decide
/-- R162 to R166: the block fires, HOPCNT is 0, one frame; lin[0] is T-FA-5. -/
theorem test_block_frame :
    (fired6.statusWord, fired6.hopcnt, fired6.framecnt,
        (List.range 4).map fun n => fired6.peek .lin 0 n) =
      (0xD, 0, 1, [some 0x40400000, some 0x40800000, some 0x40A00000, some 0x40C00000]) := by decide
/-- R195: TEARDOWN keeps FIRED and PRIMED. -/
theorem test_teardown : (after .teardown fired6).readCsr .status = 0xC := by decide
/-- T-RING-1 and T-RING-9: the slot is pos & 0x1FF, and no counter moves. -/
theorem test_ringWrite :
    (let t := after (.ringWrite 0 517) { ready2 with arg := 0x3F800000 }
     (t.peek .ring 0 5, t.peek .ring 1 5, t.wp, t.hist)) = (some 0x3F800000, some 0, 0, 0) := by decide
/-- T-RING-3 and T-RING-4. -/
theorem test_ringRead :
    (let t := after (.ringWrite 0 517) { ready2 with arg := 0x3F800000 }
     ((after (.ringRead 0 0xFE05) t).result, (after (.ringRead 1 5) t).result)) =
      (0x3F800000, 0) := by decide
/-- R233: RING_READ in IDLE is ERR_STATE (T-RING-8). -/
theorem test_ringRead_idle : (after (.ringRead 0 5) State.reset).readCsr .status = 0x200 := by decide
/-- R196: CLRERR clears what T-BUS-22 set. -/
theorem test_clrerr :
    (let t := after (.busWr 0x0C 0) State.reset
     (t.statusWord, (after .clrerr t).statusWord)) = (0x800, 0) := by decide
/-- T-BUS-1, 2, 3, 7, 8, 10, 11, 13, 15, 17 and 18: what the reads return. -/
theorem test_busRd :
    ([0x0, 0x4, 0x8, 0x34, 0x1, 0x01001000, 0x01080000, 0x02000800, 0x03001000, 0x05000000,
        0xFFFFFFFC].foldl (fun t a => after (.busRd a) t) State.reset).returned =
      [0x5A4C0007, 0x4019, 0x400, 0, 0, 0, 0, 0, 0, 0, 0] := by decide
/-- T-BUS-9, 12, 14 and 16: mapped words, unspecified after reset; no error. -/
theorem test_busRd_unspecified :
    ([0x01000FFC, 0x020007FC, 0x03000FFC, 0x04040FFC].foldl (fun t a => after (.busRd a) t)
        State.reset).statusWord = 0 := by decide
/-- T-BUS-21. -/
theorem test_busWr :
    (let t := after (.busWr 0x01040014 0x3F800000) State.reset
     (t.peek .io 1 5, (after (.busRd 0x01040014) t).returned, t.errs)) =
      (some 0x3F800000, [0x3F800000], 0) := by decide
/-- R90: a write to CMD issues the word: `setup 2, 64`. -/
theorem test_busWr_cmd : after (.busWr 0x10 0x11000040) State.reset = ready2 := by decide
/-- From reset, the step runs the placed word as its first instruction. -/
theorem test_step_placed :
    (Sys2Proof.core.run 1 (State.reset.withFetchWord 32 0x11000040)) =
      .next { ready2 with epoch := 1 } := rfl
/-- 1.0, -2.0 and 0.75 as words (95_test_vectors.md part 2): 2^0, 2^1 and 1.5 * 2^-1. -/
theorem test_binary32_fields :
    [0x3F800000, 0xC0000000, 0x3F400000].map (fun w => (exponentField w, fractionField w)) =
      [(127, 0), (128, 0), (126, 0x400000)] := by decide
/-- 1.0 is 1. -/
theorem test_val_one : val 0x3F800000 = 1 := by
  have h : scaledMagnitude 0x3F800000 = (2 ^ 23 + 0) * 2 ^ 127 := rfl
  have hs : (0x3F800000 : Word).getLsbD 31 = false := by decide
  unfold val
  rw [h, hs]
  norm_num

/-! ## Witnesses: the hypotheses of each statement can be met -/

theorem test_witness_DecodeOfEncode :
    wellFormed Build.default (.setup 1 0) = true ∧ wellFormed Build.default (.setup 16 0xFFFF) = true ∧
      wellFormed Build.default (.ringWrite 1 0xFFFF) = true ∧
      wellFormed Build.default (.ringRead 0 0) = true := by decide
theorem test_witness_EncodeOfDecode :
    decode Build.default (.cmd32 0x4100FFFF) = .ok (.ringWrite 1 0xFFFF) ∧
      decode Build.default (.bus33 0x0000000C 7) = .ok (.busRd 0xC) ∧
      decode Build.default (.bus33 0x100000014 7) = .ok (.busWr 0x14 7) := ⟨rfl, rfl, rfl⟩
theorem test_witness_OperandsAreUnsignedFields :
    decode Build.default (.cmd32 0x1F00FFFF) = .ok (.setup 16 0xFFFF) ∧
      decode Build.default (.cmd32 0x2000FFFF) = .ok (.block 0xFFFF) ∧
      decode Build.default (.cmd32 0x4100FFFF) = .ok (.ringWrite 1 0xFFFF) ∧
      decode Build.default (.cmd32 0x50000000) = .ok (.ringRead 0 0) := ⟨rfl, rfl, rfl, rfl⟩
theorem test_witness_IllegalWordsSetOnlyErrIllegal :
    ∀ w ∈ [0x70000000#32, 0xFFFFFFFF#32, 0x00000001#32, 0x38000000#32, 0x20010000#32, 0x28000000#32,
      0x10010000#32, 0x40800000#32, 0x42000000#32, 0x5F000000#32], IllegalWord Build.default w := by
  intro w hw
  simp only [List.mem_cons, List.not_mem_nil, or_false] at hw
  rcases hw with rfl | rfl | rfl | rfl | rfl | rfl | rfl | rfl | rfl | rfl <;>
    simp [IllegalWord, Build.default]
theorem test_witness_StepRunsDecodedInstruction :
    ∃ (s : State) (e : Encoding) (rest : List Event) (i : Instr),
      s.pending = .txn e.toTxn :: rest ∧ decode s.build e = .ok i :=
  ⟨withEvents ready2 [.txn (Encoding.cmd32 0x20000040).toTxn], .cmd32 0x20000040, [], .block 64, rfl, rfl⟩
theorem test_witness_StepRunsPlacedWord :
    decode State.reset.build (tableEncoding 32 0x11000040) = .ok (.setup 2 64) := rfl
theorem test_witness_IdleStepHoldsState : State.reset.pending = [] := rfl
theorem test_witness_ResetInputResets : (withEvents fired6 [.reset]).pending = .reset :: [] := rfl
theorem test_witness_SetupClearsAndStreams :
    State.reset.life ≠ .streaming ∧ 2 = State.reset.build.nch ∧
      1 ≤ (1 : Half).toNat ∧ (1024 : Half).toNat ≤ State.reset.build.iod := by decide
theorem test_witness_SetupRejectedIsCfgerr :
    State.reset.life ≠ .streaming ∧ 1 ≠ State.reset.build.nch ∧ (0 : Half).toNat = 0 ∧
      State.reset.build.iod < (1025 : Half).toNat := by decide
theorem test_witness_SetupWhileStreamingIsRefused : ready.life = .streaming := by decide
theorem test_witness_RingWriteStoresOneWord :
    ready2.life = .streaming ∧ 1 < ready2.build.nch ∧
      ¬ (1 = 1 ∧ 511 = mask ready2.build (0 : Half).toNat) := by decide
theorem test_witness_RingReadReturnsSlot :
    fired6.life = .streaming ∧ 0 < fired6.build.nch ∧
      fired6.peek .ring 0 ((7 : Half).toNat % fired6.build.cap) = some 0x40800000 := by decide
theorem test_witness_RingReadAfterRingWrite :
    ready2.life = .streaming ∧ 0 < ready2.build.nch ∧ 1 < ready2.build.nch := by decide
theorem test_witness_RingChannelOutOfRangeIsIllegal : ready2.build.nch ≤ 2 := by decide
theorem test_witness_BlockTooLongSetsErrBlklen :
    ready.life = .streaming ∧ ready.maxblk.toNat < (7 : Half).toNat := by decide
theorem test_witness_BlockCountersAndGuard :
    loaded.life = .streaming ∧ (6 : Half).toNat ≤ loaded.maxblk.toNat ∧
      (after (.block 5) loaded).fired = true ∧ (after (.block 4) loaded).fired = false := by decide
theorem test_witness_BlockIngestsSamples :
    loaded.life = .streaming ∧ (6 : Half).toNat ≤ loaded.maxblk.toNat ∧ 0 < loaded.build.nch ∧
      (6 : Half).toNat ≤ 2 + loaded.build.cap ∧ loaded.build.nch ≤ 1 ∧
      ∀ i, i < (3 : Half).toNat → mask loaded.build (loaded.wp.toNat + i) ≠ 3 := by decide
theorem test_witness_BlockShiftsHistory :
    fired6.life = .streaming ∧ (6 : Half).toNat ≤ fired6.maxblk.toNat ∧ 0 < fired6.build.nch := by decide
theorem test_witness_FiringBlockBuildsFrames :
    loaded.life = .streaming ∧ (5 : Half).toNat ≤ loaded.maxblk.toNat ∧
      loaded.build.hop ≤ loaded.hopcnt.toNat + (5 : Half).toNat ∧
      loaded.build.cap < loaded.hist.toNat + (5 : Half).toNat ∧ 0 < loaded.build.nch := by decide

/-- A firing block of zeros shows a frame of zeros, which are in range. -/
theorem test_witness_FiringBlockRoundTrips :
    ready.life = .streaming ∧ (5 : Half).toNat ≤ ready.maxblk.toNat ∧
      ready.build.hop ≤ ready.hopcnt.toNat + (5 : Half).toNat ∧
      ready.build.cap < ready.hist.toNat + (5 : Half).toNat ∧ ready.build.edit = .identity ∧
      exec (.block 5) ready = .next (after (.block 5) ready) ∧
      ∀ m, m < ready.build.cap → InRange ((after (.block 5) ready).read .lin 0 m) := by
  have hz : ∀ m, m < 4 → (after (.block 5) ready).read .lin 0 m = 0 := by decide
  refine ⟨by decide, by decide, by decide, by decide, rfl, rfl, fun m hm => ?_⟩
  rw [hz m hm]
  refine ⟨by decide, by decide, ?_⟩
  rw [val_zero]
  norm_num

theorem fired6_inv : Inv fired6 :=
  ⟨by decide, by decide, by decide, by decide, by decide, by decide⟩
theorem ready_inv : Inv ready :=
  ⟨by decide, by decide, by decide, by decide, by decide, by decide⟩

theorem test_witness_BlockOfNoSamplesOnlyClearsFired : Inv fired6 ∧ fired6.life = .streaming :=
  ⟨fired6_inv, by decide⟩
theorem test_witness_BlockFiresAtMostOnce :
    fired6.life = .streaming ∧ (2 : Half).toNat ≤ fired6.maxblk.toNat ∧
      fired6.build.cap < fired6.hist.toNat ∧ fired6.build.hop ≤ (2 : Half).toNat := by decide
theorem test_witness_HopCadence :
    Inv fired6 ∧ fired6.life = .streaming ∧ fired6.build.cap < fired6.hist.toNat ∧ fired6.hopcnt = 0 ∧
      1 ≤ (1 : Half).toNat ∧ (1 : Half).toNat ≤ fired6.maxblk.toNat :=
  ⟨fired6_inv, by decide, by decide, by decide, by decide, by decide⟩
/-- At both sides of the boundary: one sample does not reach HOP = 2, two do. -/
theorem test_witness_PrimedBlockFiresOnHop :
    Inv fired6 ∧ fired6.life = .streaming ∧ fired6.build.cap < fired6.hist.toNat ∧
      (2 : Half).toNat ≤ fired6.maxblk.toNat ∧
      ¬ fired6.build.hop ≤ fired6.hopcnt.toNat + (1 : Half).toNat ∧
      fired6.build.hop ≤ fired6.hopcnt.toNat + (2 : Half).toNat :=
  ⟨fired6_inv, by decide, by decide, by decide, by decide, by decide⟩

/-! ### Streams -/

theorem ready_streamed : Streamed ready fun _ => [] :=
  Streamed.setup (s := State.resetOf small) (nch := 1) (maxblk := 6) (by decide) rfl
theorem fired6_streamed :
    Streamed (after (.block 6) ready) fun ch => [] ++ ready.samples ch (6 : Half).toNat :=
  Streamed.block ready_streamed (by decide) rfl

theorem test_witness_RingHoldsLastSamples :
    ∃ stream, Streamed (after (.block 6) ready) stream ∧ 0 < (after (.block 6) ready).build.nch ∧
      (after (.block 6) ready).build.cap < (stream 0).length :=
  ⟨_, fired6_streamed, by decide, by decide⟩
theorem test_witness_FiredFrameIsLastSamples :
    ∃ stream, Streamed ready stream ∧ acceptsBlock ready 6 = true ∧
      exec (.block 6) ready = .next (after (.block 6) ready) ∧ (after (.block 6) ready).fired = true ∧
      0 < ready.build.nch :=
  ⟨_, ready_streamed, by decide, rfl, by decide, by decide⟩
/-- Clause by clause: a block of C = 4 samples, and one of 5. -/
theorem test_witness_ColdStartNeverFires :
    Ingested ready 0 ∧ acceptsBlock ready 4 = true ∧ acceptsBlock ready 5 = true ∧
      exec (.block 4) ready = .next (after (.block 4) ready) ∧
      exec (.block 5) ready = .next (after (.block 5) ready) ∧
      0 + (4 : Half).toNat ≤ ready.build.cap ∧
      0 ≤ ready.build.cap ∧ ready.build.cap < 0 + (5 : Half).toNat :=
  ⟨Ingested.setup (s := State.resetOf small) (nch := 1) (maxblk := 6) (by decide) rfl, by decide,
    by decide, rfl, rfl, by decide, by decide, by decide⟩

/-! ### The bus -/

theorem test_witness_WindowAddressSelectsWord :
    1 < Build.default.nch ∧ 1023 < Window.depth Build.default .spec ∧
      decodeAddr Build.default 0x04040FFC = .win .spec 1 1023 := ⟨by decide, by decide, rfl⟩
theorem test_witness_BusErrors :
    decodeAddr State.reset.build 0x00000002 = .misaligned ∧
      decodeAddr State.reset.build 0x00000034 = .unmapped ∧
      decodeAddr State.reset.build 0x0000000C = .csr .status ∧
      decodeAddr State.reset.build 0x020007FC = .win .lin 0 511 ∧
      decodeAddr State.reset.build 0x00000010 = .csr .cmd := ⟨rfl, rfl, rfl, rfl, rfl⟩
theorem test_witness_ParameterRegisters : State.reset.build = Build.default := rfl
theorem test_witness_WindowReads :
    0 < loaded.build.nch ∧ 7 < Window.io.depth loaded.build ∧
      loaded.peek Window.io.arr 0 5 = some 0x40C00000 := by decide
theorem test_witness_IoWrites : 1 < State.reset.build.nch ∧ 1023 < State.reset.build.iod := by decide
theorem test_witness_CmdWritesIssueCommands :
    decode State.reset.build (.cmd32 0x11000040) = .ok (.setup 2 64) := rfl

/-- The three transactions, the middle one a `block 6`. -/
def ioRoundTrip : State :=
  withEvents ready [.txn (encode (.busWr (Window.io.addr 0 7) 5)).toTxn,
    .txn (Encoding.cmd32 0x20000006).toTxn, .txn (encode (.busRd (Window.io.addr 0 7))).toTxn]

theorem test_witness_IoReadsBackAcrossCommand :
    0 < ioRoundTrip.build.nch ∧ 7 < ioRoundTrip.build.iod ∧
      (∀ d, decodeCmd ioRoundTrip.build 0x20000006 = .ok d → d.op ≠ .setup) ∧
      ioRoundTrip.pending = .txn (encode (.busWr (Window.io.addr 0 7) 5)).toTxn ::
        .txn (Encoding.cmd32 0x20000006).toTxn ::
        .txn (encode (.busRd (Window.io.addr 0 7))).toTxn :: [] := by
  refine ⟨by decide, by decide, fun d hd => ?_, rfl⟩
  have h : decodeCmd ioRoundTrip.build 0x20000006 = .ok ⟨.block, 0, 6⟩ := rfl
  rw [h] at hd
  cases hd
  decide

/-! ### Errors -/

theorem test_witness_LifeCheck :
    (Command.mk .ringRead 1 0).ch.toNat < State.reset.build.nch ∧ State.reset.life ≠ .streaming ∧
      ready2.life = .streaming := by decide
/-- Each class: an illegal word, a refused command, a long block, a bad SETUP, and no error. -/
theorem test_witness_OneErrorClass :
    ready2.errs = 0 ∧ State.reset.errs = 0 ∧
      (after (.busWr cmdAddr 0x70000000) ready2).errs = 1 ∧
      (after (.busWr cmdAddr 0x11000040) ready2).errs = 2 ∧
      (after (.busWr cmdAddr 0x20000041) ready2).errs = 4 ∧
      (after (.busWr cmdAddr 0x10000000) State.reset).errs = 48 ∧
      (after (.busWr cmdAddr 0x00000000) State.reset).errs = 0 := by decide
/-- Each failure on a state with ERR_BUS and the raised bit already set, and CLRERR: the other bits stay. -/
theorem test_witness_FailedCommandsArePrecise :
    (after (.busWr cmdAddr 0x70000000) { ready2 with errs := 9 }).errs = 9 ∧
      (after (.busWr cmdAddr 0x11000040) { ready2 with errs := 8 }).errs = 10 ∧
      (after (.busWr cmdAddr 0x20000041) { ready2 with errs := 12 }).errs = 12 ∧
      (after (.busWr cmdAddr 0x10000040) { State.reset with errs := 8 }) =
        { State.reset with errs := 24, life := .cfgerr } ∧
      (after (.busWr cmdAddr 0x11000000) { State.reset with errs := 40 }) =
        { State.reset with errs := 40, life := .cfgerr } ∧
      (after (.busWr cmdAddr 0x60000000) { ready2 with errs := 63 }).errs = 0 := by decide

/-- A state with ERR_STATE set and a NOP to come. -/
def sticky : State :=
  withEvents (State.reset.raise .state) [.txn (Encoding.cmd32 0).toTxn]

theorem test_witness_ErrorsAreSticky :
    step sticky = .next { State.reset.raise .state with epoch := 1 } ∧ sticky.hasErr .state = true ∧
      sticky.pending.head? ≠ some .reset ∧
      sticky.pending.head? ≠ some (.txn (Encoding.cmd32 0x60000000).toTxn) :=
  ⟨rfl, by decide, by decide, by decide⟩

/-- A well-behaved host's run: ARG, then `setup 1, 6`. -/
def tidy : State :=
  withEvents (State.resetOf small) [.txn ⟨0x100000014, 44100⟩, .txn (Encoding.cmd32 0x10000006).toTxn]

theorem test_witness_WellBehavedHostSeesNoError :
    ErrorFree tidy ∧ wellBehaved tidy (.txn ⟨0x100000014, 44100⟩) = true ∧
      ∃ t u, Sys2Proof.core.run 1 tidy = .next t ∧
        t.pending = [.txn (Encoding.cmd32 0x10000006).toTxn] ∧
        wellBehaved t (.txn (Encoding.cmd32 0x10000006).toTxn) = true ∧
        Sys2Proof.core.run 2 tidy = .next u ∧ u.life = .streaming :=
  ⟨rfl, by decide, _, _, rfl, rfl, by decide, rfl, by decide⟩

/-! ### The whole machine -/

/-- `setup 1, 6` to come. -/
def setupNext : State := withEvents (State.resetOf small) [.txn (Encoding.cmd32 0x10000006).toTxn]

theorem test_witness_OnlyTheseCommandsWrite :
    step setupNext = .next { ready with epoch := 1 } ∧ resetsNext setupNext = false ∧
      ready.life ≠ setupNext.life ∧ ready.maxblk ≠ setupNext.maxblk ∧ ready.ring ≠ setupNext.ring ∧
      ready.io ≠ setupNext.io ∧ opNext setupNext = some .setup :=
  ⟨rfl, by decide, by decide, by decide, by decide, by decide, by decide⟩
theorem test_witness_InvariantsKept :
    Inv setupNext ∧ step setupNext = .next { ready with epoch := 1 } :=
  ⟨⟨by decide, by decide, by decide, by decide, by decide, by decide⟩, rfl⟩
theorem test_witness_CanonicalKept :
    Canonical setupNext ∧ step setupNext = .next { ready with epoch := 1 } :=
  ⟨fun a => by cases a <;> rfl, rfl⟩
theorem test_witness_StreamingStorageIsSpecified :
    Specified setupNext ∧ step setupNext = .next { ready with epoch := 1 } ∧ Specified ready ∧
      ready.life = .streaming :=
  ⟨fun h => absurd h (by decide), rfl, fun _ a => by cases a <;> rfl, by decide⟩

/-- `ready2` with another word in row 1 of the ring. -/
def otherRow : State := ready2.write .ring 1 5 0x3F800000

theorem test_witness_ChannelsAreDisjoint :
    AgreeOn 0 ready2 otherRow ∧ ready2.peek .ring 1 5 ≠ otherRow.peek .ring 1 5 ∧
      exec (.block 64) ready2 = .next (after (.block 64) ready2) ∧
      exec (.block 64) otherRow = .next (after (.block 64) otherRow) := by
  refine ⟨⟨rfl, rfl, rfl, rfl, rfl, rfl, rfl, rfl, rfl, rfl, rfl, fun a k hk => ?_⟩, by decide, rfl, rfl⟩
  have h : ¬ (a = .ring ∧ cellKey 0 k = cellKey 1 5) := by
    rw [cellKey_inj hk (by decide)]
    simp
  rw [otherRow, State.peek_write, if_neg h]

end Sys2Proof.Tests
end

section
/-!
The mask and the registers' writers (00_scope.md R11, R14): what each command may write, read off the
effects of an instruction.
-/

namespace Sys2Proof.Machine

open Sys2Proof

/-- Settles O19: `mask` is reduction modulo a power of two, by `mask_eq_mod`. -/
theorem maskIsModulo : Obligations.MaskIsModulo := by
  intro b p q
  refine ⟨rfl, mask_eq_mod b p, mask_lt b p, ?_⟩
  rw [mask_eq_mod, mask_eq_mod]

/-! ## The command of a transaction -/

/-- CMD is the only address that selects CMD (10_state.md R21). -/
theorem decodeAddr_eq_cmd_iff (b : Build) (a : Word) : decodeAddr b a = .csr .cmd ↔ a = cmdAddr := by
  refine ⟨fun h => ?_, fun h => h ▸ decodeAddr_cmdAddr b⟩
  have hspec := decodeAddr_spec b a
  rw [h] at hspec
  cases hspec with
  | csr _ hoff => exact BitVec.eq_of_toNat_eq hoff

/-- The command that the pending transaction issues is the one its instruction performs. -/
theorem opNext_of_txn {s : State} {t : Txn} {rest : List Event} (h : s.pending = .txn t :: rest) :
    opNext s = commandOp s.build (decodeTxn t) := by
  unfold opNext decodeTxn
  rw [h]
  cases hwe : t.we with
  | false => simp [commandOp, hwe]
  | true =>
    by_cases ha : t.addr = cmdAddr
    · cases hd : decodeCmd s.build t.data <;> simp [commandOp, hwe, ha, hd]
    · simp [commandOp, ha, decodeAddr_eq_cmd_iff]

/-! ## What a BLOCK that runs leaves unchanged -/

/-- Besides the ring, a BLOCK changes only the pointer, the counters, FIRED and the frame buffers
(43_block_scheduler.md R162 to R168). -/
theorem State.block_frame (s : State) (n : Nat) :
    ∃ t : State, ((s.ingest n).advance n).finishBlock =
      { s with
        wp := t.wp, hopcnt := t.hopcnt, hist := t.hist, framecnt := t.framecnt, fired := t.fired
        ring := t.ring, lin := t.lin, cpx := t.cpx, spec := t.spec } := by
  refine ⟨((s.ingest n).advance n).finishBlock, ?_⟩
  rcases ((s.ingest n).advance n).finishBlock_cases with ⟨-, h⟩ | ⟨-, h⟩
  · rw [h, State.ingest_ring]
    rfl
  · rw [h, State.ingest_ring]
    rfl

/-! ## Who writes what -/

/-- Between `s` and `t` a register or array differs only if `op`, the command performed (`none`: no
command), is one that writes it (10_state.md R25, R26, R36 to R43, R45 to R49). -/
structure WrittenOnlyBy (op : Option Op) (s t : State) : Prop where
  build : t.build = s.build
  life : t.life ≠ s.life → op = some .setup ∨ op = some .teardown
  result : t.result ≠ s.result → op = some .ringRead
  blockState : ¬ (t.wp = s.wp ∧ t.hopcnt = s.hopcnt ∧ t.hist = s.hist ∧ t.framecnt = s.framecnt ∧
      t.fired = s.fired ∧ t.lin = s.lin ∧ t.cpx = s.cpx ∧ t.spec = s.spec) →
    op = some .block ∨ op = some .setup
  announced : ¬ (t.srate = s.srate ∧ t.maxblk = s.maxblk) → op = some .setup
  ring : t.ring ≠ s.ring → op = some .block ∨ op = some .ringWrite ∨ op = some .setup
  arg : t.arg ≠ s.arg → op = none
  io : t.io ≠ s.io → op = some .setup ∨ op = none

namespace WrittenOnlyBy

/-- The error bits and the words returned to the host are no register of the list, so any command, and
none, may change them. -/
theorem errs_returned (op : Option Op) (s : State) (errs : BitVec 6) (returned : List Word) :
    WrittenOnlyBy op s { s with errs := errs, returned := returned } := by
  constructor <;> simp

theorem rejectSetup (s : State) (c d : Bool) :
    WrittenOnlyBy (some .setup) s (s.rejectSetup c d) := by
  constructor <;> simp

theorem acceptSetup (s : State) (m : Half) : WrittenOnlyBy (some .setup) s (s.acceptSetup m) := by
  constructor <;> simp

theorem block (s : State) (n : Nat) :
    WrittenOnlyBy (some .block) s ((s.ingest n).advance n).finishBlock := by
  obtain ⟨t, ht⟩ := s.block_frame n
  rw [ht]
  constructor <;> simp

theorem teardown (s : State) : WrittenOnlyBy (some .teardown) s { s with life := .idle } := by
  constructor <;> simp

theorem ringWrite (s : State) (ch p : Nat) (v : Word) :
    WrittenOnlyBy (some .ringWrite) s (s.ringWrite ch v p) := by
  rw [State.ringWrite_eq]
  constructor <;> simp

theorem ringRead (s : State) (v : Word) :
    WrittenOnlyBy (some .ringRead) s { s with result := v } := by
  constructor <;> simp

theorem writeArg (s : State) (v : Word) : WrittenOnlyBy none s { s with arg := v } := by
  constructor <;> simp

theorem writeIo (s : State) (ch i : Nat) (v : Word) :
    WrittenOnlyBy none s (s.write .io ch i v) := by
  show WrittenOnlyBy none s { s with io := s.io.set (cellKey ch i) v }
  constructor <;> simp

/-- Every effect of an instruction writes only what its command may write. -/
theorem of_effect {op : Option Op} {s t : State} (h : Effect op s t) : WrittenOnlyBy op s t := by
  cases h with
  | nop => exact errs_returned _ s _ _
  | refused => exact errs_returned _ s _ _
  | setupRejected => exact rejectSetup s _ _
  | setupAccepted => exact acceptSetup s _
  | blockTooLong => exact errs_returned _ s _ _
  | block => exact block s _
  | teardown => exact teardown s
  | ringWrite => exact ringWrite s _ _ _
  | ringRead => exact ringRead s _
  | clrerr => exact errs_returned _ s _ _
  | illegalWord => exact errs_returned _ s _ _
  | busError => exact errs_returned _ s _ _
  | answerError => exact errs_returned _ s _ _
  | answer => exact errs_returned _ s _ _
  | arg => exact writeArg s _
  | io => exact writeIo s _ _ _

/-- Taking an event from the host changes none of the registers and arrays. -/
theorem of_take {op : Option Op} {s t : State} {rest : List Event}
    (h : WrittenOnlyBy op (s.take rest) t) : WrittenOnlyBy op s t :=
  ⟨h.build, h.life, h.result, h.blockState, h.announced, h.ring, h.arg, h.io⟩

/-- A step that is not a reset writes only what the command the host issues may write. -/
theorem of_step {s t : State} (h : step s = .next t) (hr : resetsNext s = false) :
    WrittenOnlyBy (opNext s) s t := by
  rcases step_cases s with ⟨-, hs⟩ | ⟨txn, rest, hp, hs⟩ | ⟨rest, hp, -⟩
  · rw [hs] at h
    cases h
    exact errs_returned _ s _ _
  · rw [hs] at h
    rw [opNext_of_txn hp]
    exact of_take (of_effect (effect_of_exec h))
  · simp [resetsNext, hp] at hr

end WrittenOnlyBy

/-- Settles O53, by cases on what a step can do and, for a transaction, on the effect of its
instruction. -/
theorem onlyTheseCommandsWrite : Obligations.OnlyTheseCommandsWrite := by
  intro s t h hr
  obtain ⟨hbuild, hlife, hresult, hblock, hannounced, hring, harg, hio⟩ := WrittenOnlyBy.of_step h hr
  exact ⟨hbuild, hlife, hresult, hblock, hannounced, hring, harg, hio⟩

end Sys2Proof.Machine
end

section
/-!
The invariants of 10_state.md R53. Inside a BLOCK, between the counters' advance and the frame guard,
clause (d) does not hold: a sum that reaches HOP has not fired yet. `MidBlock` is what holds there, and
the frame guard makes `Inv` of it.
-/

namespace Sys2Proof.Machine

open Sys2Proof

/-! ## The states where the counters do not move -/

/-- The invariants speak of five registers, and of LIFE only where it is STREAMING. -/
theorem Inv.congr {s t : State} (h : Inv s) (hbuild : t.build = s.build)
    (hlife : t.life = .streaming → s.life = .streaming) (hwp : t.wp = s.wp)
    (hhopcnt : t.hopcnt = s.hopcnt) (hhist : t.hist = s.hist) (hmaxblk : t.maxblk = s.maxblk) :
    Inv t := by
  obtain ⟨hwp_lt, hhist_le, hunprimed, hprimed, hmaxblk_le, haligned⟩ := h
  constructor <;> rw [hbuild]
  case wp_lt => rwa [hwp]
  case hist_le => rwa [hhist]
  case unprimed => rw [hhist, hhopcnt]; exact fun hl => hunprimed (hlife hl)
  case primed => rw [hhist, hhopcnt]; exact fun hl => hprimed (hlife hl)
  case maxblk_le => rwa [hmaxblk]
  case aligned => rwa [hhist, hwp]

/-- Cleared counters meet the invariants in every lifecycle state. -/
theorem Inv.of_cleared {s : State} (hwp : s.wp = 0) (hhopcnt : s.hopcnt = 0) (hhist : s.hist = 0)
    (hmaxblk : s.maxblk.toNat ≤ s.build.iod) : Inv s where
  wp_lt := by simp [hwp, cap_pos]
  hist_le := by simp [hhist]
  unprimed := by simp [hhist, hhopcnt]
  primed := by simp [hhist]
  maxblk_le := hmaxblk
  aligned := by simp [hhist, hwp]

theorem inv_resetOf (b : Build) : Inv (State.resetOf b) :=
  .of_cleared rfl rfl rfl (Nat.zero_le _)

theorem inv_resetNow (s : State) : Inv s.resetNow :=
  .of_cleared rfl rfl rfl (Nat.zero_le _)

theorem inv_acceptSetup {s : State} {m : Half} (hm : m.toNat ≤ s.build.iod) : Inv (s.acceptSetup m) :=
  .of_cleared rfl rfl rfl hm

theorem Inv.raise {s : State} (h : Inv s) (e : Err) : Inv (s.raise e) :=
  h.congr rfl id rfl rfl rfl rfl

theorem Inv.answer {s : State} (h : Inv s) (v : Word) : Inv (s.answer v) :=
  h.congr rfl id rfl rfl rfl rfl

theorem Inv.take {s : State} (h : Inv s) (rest : List Event) : Inv (s.take rest) :=
  h.congr rfl id rfl rfl rfl rfl

theorem Inv.write {s : State} (h : Inv s) (a : Arr) (ch k : Nat) (v : Word) :
    Inv (s.write a ch k v) :=
  h.congr (by simp) (by simp) (by simp) (by simp) (by simp) (by simp)

theorem Inv.rejectSetup {s : State} (h : Inv s) (c d : Bool) : Inv (s.rejectSetup c d) :=
  h.congr (by simp) (by simp) (by simp) (by simp) (by simp) (by simp)

theorem Inv.ingest {s : State} (h : Inv s) (n : Nat) : Inv (s.ingest n) := by
  rw [State.ingest_ring]
  exact h.congr rfl id rfl rfl rfl rfl

/-! ## BLOCK -/

/-- The invariants between the counters' advance and the frame guard: (a), (b), (c), (e) and (f) in
STREAMING, without (d). -/
structure MidBlock (s : State) : Prop where
  wp_lt : s.wp.toNat < s.build.cap
  hist_le : s.hist.toNat ≤ s.build.cap + 1
  unprimed : s.hist.toNat ≤ s.build.cap → s.hopcnt = s.hist
  maxblk_le : s.maxblk.toNat ≤ s.build.iod
  aligned : s.hist.toNat ≤ s.build.cap → s.hist.toNat % s.build.cap = s.wp.toNat

/-- While HIST has not saturated, HIST before the block had not either, and it and HOPCNT take the
plain sum (43_block_scheduler.md R163). -/
theorem State.advance_unprimed {s : State} {n : Nat} (h : (s.advance n).hist.toNat ≤ s.build.cap) :
    s.hist.toNat ≤ s.build.cap ∧ (s.advance n).hist.toNat = s.hist.toNat + n ∧
      (s.hopcnt = s.hist → (s.advance n).hopcnt = (s.advance n).hist) := by
  have hcap := cap_le s.build
  have hhist := s.advance_hist_toNat n
  have hhopcnt := s.advance_hopcnt_toNat n
  refine ⟨by omega, by omega, fun heq => BitVec.eq_of_toNat_eq ?_⟩
  rw [heq] at hhopcnt
  omega

/-- Advancing the counters keeps all the invariants but (d). -/
theorem Inv.advance {s : State} (h : Inv s) (hl : s.life = .streaming) (n : Nat) :
    MidBlock (s.advance n) where
  wp_lt := by
    rw [State.advance_wp_toNat]
    exact Nat.mod_lt _ (cap_pos _)
  hist_le := by
    rw [State.advance_hist_toNat]
    exact min_le_right _ _
  unprimed hle := by
    obtain ⟨hs, -, hhopcnt⟩ := State.advance_unprimed hle
    exact hhopcnt (h.unprimed hl hs)
  maxblk_le := h.maxblk_le
  aligned hle := by
    obtain ⟨hs, hsum, -⟩ := State.advance_unprimed hle
    rw [hsum, State.advance_wp_toNat, State.advance_build, ← h.aligned hs, Nat.mod_add_mod]

theorem State.fires_iff (s : State) :
    s.fires = true ↔ s.build.hop ≤ s.hopcnt.toNat ∧ s.build.cap < s.hist.toNat := by
  simp [State.fires]

/-- The frame guard establishes (d): a block whose sum reaches HOP fires and clears HOPCNT
(43_block_scheduler.md R164, R166). -/
theorem MidBlock.finishBlock {s : State} (h : MidBlock s) : Inv s.finishBlock := by
  obtain ⟨hwp_lt, hhist_le, hunprimed, hmaxblk_le, haligned⟩ := h
  rcases s.finishBlock_cases with ⟨hf, he⟩ | ⟨hf, he⟩ <;> rw [he]
  · obtain ⟨-, hsaturated⟩ := s.fires_iff.1 hf
    exact ⟨hwp_lt, hhist_le, fun _ hle => absurd hle (not_le.2 hsaturated),
      fun _ _ => s.build.legal.2.2.1.1, hmaxblk_le, haligned⟩
  · have hquiet : s.build.cap < s.hist.toNat → s.hopcnt.toNat < s.build.hop := fun hsaturated => by
      by_contra hreached
      rw [s.fires_iff.2 ⟨not_lt.1 hreached, hsaturated⟩] at hf
      cases hf
    exact ⟨hwp_lt, hhist_le, fun _ => hunprimed, fun _ => hquiet, hmaxblk_le, haligned⟩

/-- A BLOCK in STREAMING keeps the invariants. -/
theorem Inv.block {s : State} (h : Inv s) (hl : s.life = .streaming) (n : Nat) :
    Inv ((s.ingest n).advance n).finishBlock := by
  have hlife : (s.ingest n).life = .streaming := by rw [State.ingest_ring]; exact hl
  exact ((h.ingest n).advance hlife n).finishBlock

/-! ## Every effect and every step -/

/-- Every effect of an instruction keeps the invariants. -/
theorem Inv.of_effect {op : Option Op} {s t : State} (h : Inv s) (he : Effect op s t) : Inv t := by
  cases he with
  | nop => exact h
  | refused => exact h.raise _
  | setupRejected => exact h.rejectSetup _ _
  | setupAccepted _ _ _ _ hi => exact inv_acceptSetup hi
  | blockTooLong => exact h.raise .blklen
  | block _ _ hl => exact h.block hl _
  | teardown => exact h.congr rfl (fun hl => by cases hl) rfl rfl rfl rfl
  | ringWrite => exact h.write _ _ _ _
  | ringRead => exact h.congr rfl id rfl rfl rfl rfl
  | clrerr => exact h.congr rfl id rfl rfl rfl rfl
  | illegalWord => exact h.raise .illegal
  | busError => exact h.raise .bus
  | answerError => exact (h.raise .bus).answer 0
  | answer => exact h.answer _
  | arg => exact h.congr rfl id rfl rfl rfl rfl
  | io => exact h.write _ _ _ _

/-- Settles O54, by cases on what a step can do and, for a transaction, on the effect of its
instruction. -/
theorem invariantsKept : Obligations.InvariantsKept := by
  intro s t h hstep
  rcases step_cases s with ⟨-, hs⟩ | ⟨txn, rest, -, hs⟩ | ⟨rest, -, hs⟩
  · rw [hs] at hstep
    cases hstep
    exact h
  · rw [hs] at hstep
    exact (h.take rest).of_effect (effect_of_exec hstep)
  · rw [hs] at hstep
    cases hstep
    exact inv_resetNow _

/-- Settles O55: reset clears the counters. -/
theorem invariantsHoldAtReset : Obligations.InvariantsHoldAtReset := inv_resetOf

end Sys2Proof.Machine
end

section
/-!
The registers on the bus: the fields of the words they read as (10_state.md R22 to R43), what a read or a
write of one does (20_memory.md R66, R67), and the command that a write of CMD issues (30_encoding.md
R90).
-/

namespace Sys2Proof.Machine

open Sys2Proof

/-! ## Reading and writing a register -/

/-- Every register is selected by the address that is its offset (10_state.md R21). -/
theorem decodeAddr_csr (b : Build) (r : Csr) : decodeAddr b (BitVec.ofNat 32 r.offset) = .csr r := by
  cases r <;> rfl

theorem exec_busRd_csr {s : State} {addr : Word} {r : Csr} (h : decodeAddr s.build addr = .csr r) :
    exec (.busRd addr) s = .next (s.answer (s.readCsr r)) := by
  show Host.Outcome.next ((memRead addr s).2.answer (memRead addr s).1) = _
  simp only [memRead, h]

theorem exec_busWr_csr {s : State} {addr : Word} {r : Csr} (h : decodeAddr s.build addr = .csr r)
    (v : Word) : exec (.busWr addr v) s = writeCsr r v s := by
  show memWrite addr v s = _
  simp only [memWrite, h]

/-- Settles O44: ARG is the register at 0x14, and its write stores the word. -/
theorem argWrites : Obligations.ArgWrites :=
  fun s v => exec_busWr_csr (decodeAddr_csr s.build .arg) v

/-- Settles O46: a write to CMD decodes its word, and performing a decoded command is executing its
instruction. -/
theorem cmdWritesIssueCommands : Obligations.CmdWritesIssueCommands := by
  intro s w i hi
  show exec (.busWr cmdAddr w) s = _
  rw [exec_busWr_cmd]
  rcases executeCommand_cases w s with ⟨⟨e, hd⟩, -⟩ | ⟨d, hd, he⟩
  · simp [decode, hd, Except.map] at hi
  · simp only [decode, hd, Except.map, Except.ok.injEq] at hi
    rw [he, hi]

/-! ## The words of the registers -/

/-- Concatenation as arithmetic. -/
theorem toNat_append_add {m n : Nat} (x : BitVec m) (y : BitVec n) :
    (x ++ y).toNat = x.toNat * 2 ^ n + y.toNat := by
  rw [BitVec.toNat_append, ← Nat.shiftLeft_add_eq_or_of_lt y.isLt, Nat.shiftLeft_eq]

theorem readCsr_wp_toNat (s : State) : (s.readCsr .wp).toNat = s.wp.toNat % s.build.cap := by
  have hlt := mask_lt_65536 s.build s.wp.toNat
  rw [← mask_eq_mod]
  exact Nat.mod_eq_of_lt (by omega)

theorem readCsr_maxblk_toNat (s : State) : (s.readCsr .maxblk).toNat = s.maxblk.toNat := by
  simp only [State.readCsr, toNat_append_add]
  simp

/-- Settles O40: an offset selects its register, and each register's word is its field. -/
theorem registerReads : Obligations.RegisterReads := fun s r =>
  ⟨exec_busRd_csr (decodeAddr_csr s.build r), rfl, rfl, rfl, rfl, rfl, readCsr_wp_toNat s, rfl, rfl, rfl,
    rfl, readCsr_maxblk_toNat s⟩

/-- HOP is at most C, so it fits its 16-bit field of PARAM (00_scope.md R8). -/
theorem hop_lt_65536 (b : Build) : b.hop < 65536 := by
  have hcap := cap_le b
  have hhop : b.hop ≤ b.cap := b.legal.2.2.1.2
  omega

/-- PARAM by its fields: [23:8] HOP, [7:4] NCH - 1, [3:0] LOG2C (10_state.md R23). -/
theorem paramWord_toNat (b : Build) :
    (paramWord b).toNat = b.log2c + 16 * (b.nch - 1) + 256 * b.hop := by
  obtain ⟨⟨-, hlog2c⟩, ⟨-, hnch⟩, -, -⟩ := b.legal
  have hhop := hop_lt_65536 b
  unfold paramWord
  simp only [toNat_append_add, BitVec.toNat_ofNat]
  omega

/-- PARAM2 is IOD (10_state.md R24). -/
theorem param2Word_toNat (b : Build) : (param2Word b).toNat = b.iod := by
  obtain ⟨-, -, -, -, hiod⟩ := b.legal
  simp only [param2Word, toNat_append_add, BitVec.toNat_ofNat]
  omega

/-- Settles O42: the ranges of the parameters make each fit its field. -/
theorem parameterRegisters : Obligations.ParameterRegisters := by
  refine ⟨fun s => ⟨paramWord_toNat s.build, param2Word_toNat s.build⟩, fun s hb => ?_⟩
  simp only [State.readCsr, hb]
  exact ⟨rfl, rfl⟩

/-! ## STATUS -/

/-- STATUS from bit 8 on: the six errors, and zeros above them (10_state.md R34). -/
theorem getLsbD_statusWord_errs (s : State) (k : Nat) :
    s.statusWord.getLsbD (8 + k) = s.errs.getLsbD k := by
  have hk : 8 + k - 2 - 1 - 1 - 4 = k := by omega
  simp only [State.statusWord, BitVec.getLsbD_append, hk]
  rw [if_neg (by omega), if_neg (by omega), if_neg (by omega), if_neg (by omega)]
  split
  · rfl
  · rw [BitVec.getLsbD_of_ge s.errs k (by omega), BitVec.getLsbD_zero]

/-- STATUS[7:4] is zero (10_state.md R34). -/
theorem getLsbD_statusWord_reserved (s : State) {i : Nat} (h4 : 4 ≤ i) (h8 : i < 8) :
    s.statusWord.getLsbD i = false := by
  simp only [State.statusWord, BitVec.getLsbD_append]
  rw [if_neg (by omega), if_neg (by omega), if_neg (by omega), if_pos (by omega), BitVec.getLsbD_zero]

/-- STATUS[2] is FIRED (10_state.md R26). -/
theorem getLsbD_statusWord_fired (s : State) : s.statusWord.getLsbD 2 = s.fired := by
  simp only [State.statusWord, BitVec.getLsbD_append]
  simp

/-- STATUS[3] is PRIMED (10_state.md R27). -/
theorem getLsbD_statusWord_primed (s : State) : s.statusWord.getLsbD 3 = s.primed := by
  simp only [State.statusWord, BitVec.getLsbD_append]
  simp

/-- STATUS[1:0] is LIFE (10_state.md R25). -/
theorem statusWord_mod_four (s : State) : s.statusWord.toNat % 4 = s.life.code.toNat := by
  unfold State.statusWord
  rw [toNat_append_add]
  have hlt := s.life.code.isLt
  omega

/-- Settles O41, from the fields of STATUS one by one. -/
theorem statusLayout : Obligations.StatusLayout := by
  intro s
  refine ⟨?life, ?fired, ?primed, ?errors, ?reserved, ?readOnly⟩
  case life =>
    rw [statusWord_mod_four]
    cases s.life <;> rfl
  case fired => exact getLsbD_statusWord_fired s
  case primed => rw [getLsbD_statusWord_primed]; exact decide_eq_true_iff
  case errors => exact fun e => getLsbD_statusWord_errs s e.bit
  case reserved =>
    rintro i (⟨h4, h8⟩ | h14)
    · exact getLsbD_statusWord_reserved s h4 h8
    · obtain ⟨k, rfl⟩ := Nat.exists_eq_add_of_le (show 8 ≤ i by omega)
      rw [getLsbD_statusWord_errs, BitVec.getLsbD_of_ge s.errs k (by omega)]
  case readOnly => exact fun v => exec_busWr_csr (decodeAddr_csr s.build .status) v

end Sys2Proof.Machine
end

section
/-!
The storage arrays over a step: what an instruction can do to them, and from it their canonical form
(log 8) and that while streaming every word is specified (70_reset_and_hazards.md R261).
-/

namespace Sys2Proof.Machine

open Sys2Proof

/-! ## What an instruction can do to the storage -/

/-- The storage after the frame guard: that of FRAME_READY if the block fires (43_block_scheduler.md
R165), untouched if not. -/
theorem State.finishBlock_arr (s : State) (a : Arr) :
    s.finishBlock.arr a = if s.fires then s.frameReady.arr a else s.arr a := by
  unfold State.finishBlock
  split <;> rfl

/-- What an effect does to the storage arrays: it keeps them, and does not begin to stream; it is a
SETUP, which clears them; it writes one word; or it is a BLOCK that runs. -/
theorem Effect.storage_cases {op : Option Op} {s t : State} (h : Effect op s t) :
    ((t.life = .streaming → s.life = .streaming) ∧ ∀ a, t.arr a = s.arr a) ∨
    (∀ a, t.arr a = Memory.filled 0) ∨
    (∃ a ch k v, t = s.write a ch k v) ∨
    (∃ n, s.life = .streaming ∧ t = ((s.ingest n).advance n).finishBlock) := by
  cases h with
  | nop => exact .inl ⟨id, fun _ => rfl⟩
  | refused => exact .inl ⟨id, fun _ => rfl⟩
  | setupRejected => exact .inl ⟨nofun, by simp⟩
  | setupAccepted => exact .inr (.inl (by simp))
  | blockTooLong => exact .inl ⟨id, fun _ => rfl⟩
  | block _ _ hl => exact .inr (.inr (.inr ⟨_, hl, rfl⟩))
  | teardown => exact .inl ⟨nofun, fun _ => rfl⟩
  | ringWrite => exact .inr (.inr (.inl ⟨_, _, _, _, rfl⟩))
  | ringRead => exact .inl ⟨id, fun _ => rfl⟩
  | clrerr => exact .inl ⟨id, fun _ => rfl⟩
  | illegalWord => exact .inl ⟨id, fun _ => rfl⟩
  | busError => exact .inl ⟨id, fun _ => rfl⟩
  | answerError => exact .inl ⟨id, fun _ => rfl⟩
  | answer => exact .inl ⟨id, fun _ => rfl⟩
  | arg => exact .inl ⟨id, fun _ => rfl⟩
  | io => exact .inr (.inr (.inl ⟨_, _, _, _, rfl⟩))

/-- After the reset input every storage word is unspecified (70_reset_and_hazards.md R261). -/
@[simp] theorem State.resetNow_arr (s : State) (a : Arr) : s.resetNow.arr a = Memory.unspecified := by
  cases a <;> rfl

/-! ## The canonical form -/

theorem canonical_finishBlock {s : State} (h : Canonical s) : Canonical s.finishBlock := by
  intro a
  rw [State.finishBlock_arr]
  split
  · exact canonical_frameReady h a
  · exact h a

/-- Every effect of an instruction keeps the canonical form. -/
theorem Canonical.of_effect {op : Option Op} {s t : State} (h : Canonical s) (he : Effect op s t) :
    Canonical t := by
  rcases he.storage_cases with ⟨-, hkept⟩ | hcleared | ⟨a, ch, k, v, rfl⟩ | ⟨n, -, rfl⟩
  · exact h.congr hkept
  · exact fun a => by rw [hcleared a, Memory.wf_filled]
  · exact canonical_write h a ch k v
  · exact canonical_finishBlock ((canonical_ingest h n).congr (State.advance_arr _ n))

/-- Settles O56, by cases on what a step can do and, for a transaction, on what its effect does to the
storage. -/
theorem canonicalKept : Obligations.CanonicalKept := by
  intro s t h hstep
  rcases step_cases s with ⟨-, hs⟩ | ⟨txn, rest, -, hs⟩ | ⟨rest, -, hs⟩ <;> rw [hs] at hstep
  · cases hstep
    exact h
  · exact (h.congr (State.take_arr s rest)).of_effect (effect_of_exec hstep)
  · cases hstep
    exact fun a => by rw [State.resetNow_arr, Memory.wf_unspecified]

/-- Settles O57: at reset every array is empty. -/
theorem canonicalAtReset : Obligations.CanonicalAtReset :=
  fun _ a => by cases a <;> rfl

/-! ## Specified words -/

/-- A BLOCK keeps what an unlisted word of each array reads as. -/
theorem State.fill_block (s : State) (n : Nat) (a : Arr) :
    (((s.ingest n).advance n).finishBlock.arr a).fill = (s.arr a).fill := by
  rw [State.finishBlock_arr]
  split
  · rw [State.fill_frameReady, State.advance_arr, State.fill_ingest]
  · rw [State.advance_arr, State.fill_ingest]

/-- The property looks at LIFE and at what an unlisted word of each array reads as. -/
theorem Specified.congr {s t : State} (h : Specified s)
    (hlife : t.life = .streaming → s.life = .streaming)
    (hfill : ∀ a, (t.arr a).fill = (s.arr a).fill) : Specified t :=
  fun hl a => (hfill a).trans (h (hlife hl) a)

/-- Every effect of an instruction keeps it: only a SETUP begins to stream, and it fills the arrays. -/
theorem Specified.of_effect {op : Option Op} {s t : State} (h : Specified s) (he : Effect op s t) :
    Specified t := by
  rcases he.storage_cases with ⟨hlife, hkept⟩ | hcleared | ⟨a, ch, k, v, rfl⟩ | ⟨n, hl, rfl⟩
  · exact h.congr hlife fun a => by rw [hkept]
  · exact fun _ a => by rw [hcleared a, Memory.fill_filled]
  · exact h.congr (by simp) fun b => s.fill_write a b ch k v
  · exact h.congr (fun _ => hl) (s.fill_block n)

theorem Specified.of_step {s t : State} (h : Specified s) (hstep : step s = .next t) :
    Specified t := by
  rcases step_cases s with ⟨-, hs⟩ | ⟨txn, rest, -, hs⟩ | ⟨rest, -, hs⟩ <;> rw [hs] at hstep
  · cases hstep
    exact h
  · exact (h.congr (t := s.take rest) id fun a => by rw [State.take_arr]).of_effect
      (effect_of_exec hstep)
  · cases hstep
    exact nofun

/-- A filled array has no unspecified word. -/
theorem Memory.get_ne_none {m : Memory} {v : Word} (h : m.fill = some v) (key : Nat) :
    m.get key ≠ none := by
  unfold Memory.get
  rw [h]
  cases findCell key m.cells <;> simp

/-- Settles O58: LIFE is IDLE at reset; a step keeps the property by `Specified.of_step`; and where every
array is filled, every word holds a value. -/
theorem streamingStorageIsSpecified : Obligations.StreamingStorageIsSpecified :=
  ⟨fun _ => nofun, fun _ _ => Specified.of_step,
    fun _ a _ _ h hl => Memory.get_ne_none (h hl a) _⟩

end Sys2Proof.Machine
end

section
/-!
Channels are disjoint (20_memory.md R76). `AgreeOn ch` is kept by every instruction: each operation
treats row `ch` by the registers and row `ch` alone.
-/

namespace Sys2Proof.Machine

open Sys2Proof

/-- No command is a bus transaction. -/
theorem toInstr_ne_bus (d : Command) :
    (∀ addr, d.toInstr ≠ .busRd addr) ∧ ∀ addr v, d.toInstr ≠ .busWr addr v := by
  obtain ⟨op, ch, imm⟩ := d
  cases op <;> exact ⟨nofun, nofun⟩

namespace AgreeOn

variable {ch : Nat} {s t : State}

/-! ## What agreeing states share -/

/-- RESULT, the errors and what the host has seen are not shared. -/
theorem unread (h : AgreeOn ch s t) (errs errs' : BitVec 6) (result result' : Word)
    (returned returned' : List Word) :
    AgreeOn ch { s with errs := errs, result := result, returned := returned }
      { t with errs := errs', result := result', returned := returned' } :=
  { h with }

theorem read (h : AgreeOn ch s t) (a : Arr) {k : Nat} (hk : k < 65536) :
    s.read a ch k = t.read a ch k := by
  rw [State.read, State.read, h.rows a k hk, h.epoch]

theorem ringRead (h : AgreeOn ch s t) (p : Nat) : s.ringRead ch p = t.ringRead ch p := by
  rw [State.ringRead, State.ringRead, h.read _ (mask_lt_65536 _ _), h.build]

theorem fires (h : AgreeOn ch s t) : s.fires = t.fires := by
  simp only [State.fires, h.build, h.hopcnt, h.hist]

/-! ## Storage -/

/-- Where only storage arrays were replaced, the rows of the channel are what is left to compare. -/
theorem of_storage {u v : State} (h : AgreeOn ch s t)
    (hu : u = { s with ring := u.ring, io := u.io, lin := u.lin, cpx := u.cpx, spec := u.spec })
    (hv : v = { t with ring := v.ring, io := v.io, lin := v.lin, cpx := v.cpx, spec := v.spec })
    (hrows : ∀ a k, k < 65536 → u.peek a ch k = v.peek a ch k) : AgreeOn ch u v where
  build := by rw [hu, hv]; exact h.build
  life := by rw [hu, hv]; exact h.life
  fired := by rw [hu, hv]; exact h.fired
  arg := by rw [hu, hv]; exact h.arg
  wp := by rw [hu, hv]; exact h.wp
  hopcnt := by rw [hu, hv]; exact h.hopcnt
  hist := by rw [hu, hv]; exact h.hist
  framecnt := by rw [hu, hv]; exact h.framecnt
  srate := by rw [hu, hv]; exact h.srate
  maxblk := by rw [hu, hv]; exact h.maxblk
  epoch := by rw [hu, hv]; exact h.epoch
  rows := hrows

/-- The same word written to both states, whichever row it is in. -/
theorem write (h : AgreeOn ch s t) (a : Arr) (c k : Nat) (v : Word) :
    AgreeOn ch (s.write a c k v) (t.write a c k v) :=
  h.of_storage (by cases a <;> rfl) (by cases a <;> rfl) fun b k' hk' => by
    rw [State.peek_write, State.peek_write, h.rows b k' hk']

/-! ## BLOCK -/

/-- Ingestion fills a row of the ring from the same row of io (43_block_scheduler.md R162). -/
theorem ingest (h : AgreeOn ch s t) {n : Nat} (hn : n ≤ 65536) :
    AgreeOn ch (s.ingest n) (t.ingest n) := by
  refine h.of_storage (by rw [State.ingest_ring]) (by rw [State.ingest_ring]) fun a k hk => ?_
  induction n with
  | zero => exact h.rows a k hk
  | succ n ih =>
    rw [State.peek_ingest_succ _ _ _ _ hk, State.peek_ingest_succ _ _ _ _ hk, ih (by omega), h.build,
      h.wp, h.read _ (by omega)]

theorem advance (h : AgreeOn ch s t) (n : Nat) : AgreeOn ch (s.advance n) (t.advance n) :=
  { h with
    wp := by simp only [State.advance, h.build, h.wp]
    hopcnt := by simp only [State.advance, h.hopcnt]
    hist := by simp only [State.advance, h.build, h.hist] }

/-- FRAME_READY makes each channel's frame of its own row of the ring (43_block_scheduler.md R165). -/
theorem frameReady (h : AgreeOn ch s t) : AgreeOn ch s.frameReady t.frameReady := by
  rw [State.frameReady_eq, State.frameReady_eq]
  refine h.of_storage (by rw [State.frameChannels_frame]) (by rw [State.frameChannels_frame])
    fun a k hk => ?_
  simp only [State.peek_frameChannels _ _ _ _ hk, State.peek_frameChannel _ _ _ _ hk, h.build, h.wp,
    h.ringRead, h.rows a k hk]

theorem finishBlock (h : AgreeOn ch s t) : AgreeOn ch s.finishBlock t.finishBlock := by
  unfold State.finishBlock
  rw [h.fires]
  split
  · exact { h.frameReady with
      hopcnt := rfl, framecnt := congrArg (· + 1) h.framecnt, fired := rfl }
  · exact { h with fired := rfl }

theorem runBlock (h : AgreeOn ch s t) (n : Half) : AgreeOn ch (s.runBlock n) (t.runBlock n) := by
  unfold State.runBlock
  rw [h.maxblk]
  split
  · exact h.unread _ _ _ _ _ _
  · exact ((h.ingest n.isLt.le).advance _).finishBlock

/-! ## The other commands -/

theorem rejectSetup (h : AgreeOn ch s t) (c d : Bool) :
    AgreeOn ch (s.rejectSetup c d) (t.rejectSetup c d) := by
  cases c <;> cases d <;> exact { h with life := rfl }

theorem acceptSetup (h : AgreeOn ch s t) (m : Half) :
    AgreeOn ch (s.acceptSetup m) (t.acceptSetup m) where
  build := h.build
  life := rfl
  fired := rfl
  arg := h.arg
  wp := rfl
  hopcnt := rfl
  hist := rfl
  framecnt := rfl
  srate := h.arg
  maxblk := rfl
  epoch := h.epoch
  rows a k _ := State.peek_congr (by simp) ch k

theorem runSetup (h : AgreeOn ch s t) (nch : Nat) (m : Half) :
    AgreeOn ch (s.runSetup nch m) (t.runSetup nch m) := by
  unfold State.runSetup
  rw [h.build]
  split
  · exact h.rejectSetup _ _
  · exact h.acceptSetup m

/-- The LIFE check looks at LIFE, which the states share. -/
theorem issue (h : AgreeOn ch s t) (op : Op) {f : State → State} (hf : AgreeOn ch (f s) (f t)) :
    AgreeOn ch (s.issue op f) (t.issue op f) := by
  unfold State.issue
  rw [h.life]
  split
  · exact hf
  · exact h.unread _ _ _ _ _ _

/-- The check of a ring command's channel looks at NCH, which the states share. -/
theorem issueRing (h : AgreeOn ch s t) (op : Op) (c : Nat) {f : State → State}
    (hf : AgreeOn ch (f s) (f t)) : AgreeOn ch (s.issueRing op c f) (t.issueRing op c f) := by
  unfold State.issueRing
  rw [h.build]
  split
  · exact h.issue op hf
  · exact h.unread _ _ _ _ _ _

/-! ## Every instruction -/

/-- A command keeps the agreement. -/
theorem command (h : AgreeOn ch s t) {i : Instr} (hi : ∀ addr, i ≠ .busRd addr)
    (hi' : ∀ addr v, i ≠ .busWr addr v) :
    ∃ s' t', exec i s = .next s' ∧ exec i t = .next t' ∧ AgreeOn ch s' t' := by
  cases i with
  | nop => exact ⟨_, _, rfl, rfl, h.issue _ h⟩
  | setup nch m => exact ⟨_, _, rfl, rfl, h.issue _ (h.runSetup nch m)⟩
  | block n => exact ⟨_, _, rfl, rfl, h.issue _ (h.runBlock n)⟩
  | teardown => exact ⟨_, _, rfl, rfl, h.issue _ { h with life := rfl }⟩
  | ringWrite c pos =>
    refine ⟨_, _, rfl, rfl, h.issueRing _ _ ?_⟩
    simp only [State.ringWrite, h.arg, h.build]
    exact h.write _ _ _ _
  | ringRead c pos => exact ⟨_, _, rfl, rfl, h.issueRing _ _ (h.unread _ _ _ _ _ _)⟩
  | clrerr => exact ⟨_, _, rfl, rfl, h.issue _ (h.unread _ _ _ _ _ _)⟩
  | busRd addr => exact absurd rfl (hi addr)
  | busWr addr v => exact absurd rfl (hi' addr v)

/-- A bus read changes at most the errors and what the host has seen. -/
theorem busRd (h : AgreeOn ch s t) (addr : Word) :
    ∃ s' t', exec (.busRd addr) s = .next s' ∧ exec (.busRd addr) t = .next t' ∧ AgreeOn ch s' t' := by
  refine ⟨_, _, rfl, rfl, ?_⟩
  unfold memRead
  rw [h.build]
  cases decodeAddr t.build addr <;> exact h.unread _ _ _ _ _ _

/-- A word written to CMD is decoded by NCH, which the states share. -/
theorem executeCommand (h : AgreeOn ch s t) (w : Word) :
    ∃ s' t', executeCommand w s = .next s' ∧ executeCommand w t = .next t' ∧ AgreeOn ch s' t' := by
  unfold Machine.executeCommand
  rw [h.build]
  cases decodeCmd t.build w with
  | error e => exact ⟨_, _, rfl, rfl, h.unread _ _ _ _ _ _⟩
  | ok d =>
    obtain ⟨hrd, hwr⟩ := toInstr_ne_bus d
    simp only [perform_eq_exec]
    exact h.command hrd hwr

theorem writeCsr (h : AgreeOn ch s t) (r : Csr) (v : Word) :
    ∃ s' t', writeCsr r v s = .next s' ∧ writeCsr r v t = .next t' ∧ AgreeOn ch s' t' := by
  cases r with
  | cmd => exact h.executeCommand v
  | arg => exact ⟨_, _, rfl, rfl, { h with arg := rfl }⟩
  | _ => exact ⟨_, _, rfl, rfl, h.unread _ _ _ _ _ _⟩

/-- A bus write stores the same word of io in both states, writes a register, or is a bus error. -/
theorem busWr (h : AgreeOn ch s t) (addr v : Word) :
    ∃ s' t', exec (.busWr addr v) s = .next s' ∧ exec (.busWr addr v) t = .next t' ∧
      AgreeOn ch s' t' := by
  show ∃ s' t', memWrite addr v s = .next s' ∧ memWrite addr v t = .next t' ∧ AgreeOn ch s' t'
  unfold memWrite
  rw [h.build]
  cases decodeAddr t.build addr with
  | csr r => exact h.writeCsr r v
  | win w c k =>
    cases w with
    | io => exact ⟨_, _, rfl, rfl, h.write .io c k v⟩
    | _ => exact ⟨_, _, rfl, rfl, h.unread _ _ _ _ _ _⟩
  | _ => exact ⟨_, _, rfl, rfl, h.unread _ _ _ _ _ _⟩

/-- Every instruction keeps the agreement. -/
theorem exec (h : AgreeOn ch s t) (i : Instr) :
    ∃ s' t', exec i s = .next s' ∧ exec i t = .next t' ∧ AgreeOn ch s' t' := by
  cases i with
  | busRd addr => exact h.busRd addr
  | busWr addr v => exact h.busWr addr v
  | _ => exact h.command nofun nofun

end AgreeOn

/-- Settles O59: every instruction keeps the agreement, and its next state is the only one. -/
theorem channelsAreDisjoint : Obligations.ChannelsAreDisjoint := by
  intro i s t s' t' ch h hs ht
  obtain ⟨u, v, hu, hv, hagree⟩ := h.exec i
  rw [hs] at hu
  rw [ht] at hv
  cases hu
  cases hv
  exact hagree

end Sys2Proof.Machine
end

section
/-!
The address map as numbers (20_memory.md R61 to R63, 10_state.md R44): one `↔` for each kind of target,
from `decodeAddr_spec`.
-/

namespace Sys2Proof.Machine

open Sys2Proof

/-- Every aligned offset below 0x34 is a register's (10_state.md R21). -/
theorem Csr.exists_offset {n : Nat} (haligned : n % 4 = 0) (hlt : n < 0x34) :
    ∃ r : Csr, n = r.offset := by
  have hsome : ∀ k < 13, (Csr.ofOffset (4 * k)).isSome = true := by decide
  obtain ⟨r, hr⟩ := Option.isSome_iff_exists.1 (hsome (n / 4) (by omega))
  exact ⟨r, by rw [← (Csr.ofOffset_iff _ r).1 hr]; omega⟩

theorem decodeAddr_eq_misaligned_iff (b : Build) (a : Word) :
    decodeAddr b a = .misaligned ↔ a.toNat % 4 ≠ 0 := by
  have hspec := decodeAddr_spec b a
  constructor
  · intro h
    rw [h] at hspec
    cases hspec with
    | mis hn => exact hn
  · intro h
    generalize decodeAddr b a = target at hspec
    cases hspec with
    | mis _ => rfl
    | csr r hr => exact absurd (hr ▸ r.offset_lt.1) h
    | _ => contradiction

theorem decodeAddr_eq_csr_iff (b : Build) (a : Word) (r : Csr) :
    decodeAddr b a = .csr r ↔ a.toNat = r.offset := by
  constructor
  · intro h
    have hspec := decodeAddr_spec b a
    rw [h] at hspec
    cases hspec with
    | csr _ hn => exact hn
  · intro h
    have ha : a = BitVec.ofNat 32 r.offset := by rw [← h, BitVec.ofNat_toNat, BitVec.setWidth_eq]
    rw [ha, decodeAddr_csr]

/-- The word a window address selects, by the fields of the address (R62). -/
theorem decodeAddr_eq_win_iff (b : Build) (a : Word) (w : Window) (ch idx : Nat) :
    decodeAddr b a = .win w ch idx ↔
      a.toNat = w.region * 0x1000000 + ch * 0x40000 + 4 * idx ∧ ch < b.nch ∧ idx < w.depth b := by
  have hspec := decodeAddr_spec b a
  constructor
  · intro h
    rw [h] at hspec
    cases hspec with
    | win _ haligned hwindow hch hidx => exact ⟨by omega, hch, hidx⟩
  · rintro ⟨hn, hch, hidx⟩
    have hregion := w.region_lt
    have hdepth := w.depth_le b
    have hnch := b.legal.2.1.2
    have hrow : a.toNat / 2 ^ 18 % 64 = ch := by omega
    have hindex : a.toNat / 4 % 65536 = idx := by omega
    have hwindow : a.toNat / 2 ^ 24 = w.region := by omega
    generalize decodeAddr b a = target at hspec
    cases hspec with
    | mis h => omega
    | csr r h => have := r.offset_lt; omega
    | nocsr h h' => omega
    | win w' _ h => rw [hrow, hindex, w'.region_inj (h.symm.trans hwindow)]
    | nowin w' _ h hno =>
      rw [hrow, hindex, w'.region_inj (h.symm.trans hwindow)] at hno
      exact absurd ⟨hch, hidx⟩ hno
    | noregion _ h => omega

/-- What is unmapped: the rest of the CSR region, everything above the windows, and the words of a
window beyond its rows or its depth (R62, R63, R44). -/
theorem decodeAddr_eq_unmapped_iff (b : Build) (a : Word) :
    decodeAddr b a = .unmapped ↔ a.toNat % 4 = 0 ∧
      (0x34 ≤ a.toNat ∧ a.toNat < 0x01000000 ∨ 0x05000000 ≤ a.toNat ∨
        ∃ w : Window, a.toNat / 2 ^ 24 = w.region ∧
          (b.nch ≤ a.toNat / 2 ^ 18 % 64 ∨ w.depth b ≤ a.toNat / 4 % 65536)) := by
  have hspec := decodeAddr_spec b a
  constructor
  · intro h
    rw [h] at hspec
    cases hspec with
    | nocsr haligned hlt hno =>
      have hge : 0x34 ≤ a.toNat := not_lt.1 fun hsmall =>
        absurd (Csr.exists_offset haligned hsmall) (not_exists.2 hno)
      exact ⟨haligned, .inl ⟨hge, hlt⟩⟩
    | nowin w haligned hregion hno =>
      exact ⟨haligned, .inr (.inr ⟨w, hregion, by omega⟩)⟩
    | noregion haligned hregion => exact ⟨haligned, .inr (.inl (by omega))⟩
  · rintro ⟨haligned, hout⟩
    generalize decodeAddr b a = target at hspec
    cases hspec with
    | mis h => exact absurd haligned h
    | csr r h =>
      have hoffset := r.offset_lt
      rcases hout with hcsr | habove | ⟨w, hregion, -⟩
      · omega
      · omega
      · have := w.region_lt
        omega
    | win w _ hregion hrow hindex =>
      have hlt := w.region_lt
      rcases hout with hcsr | habove | ⟨w', hregion', hbeyond⟩
      · omega
      · omega
      · rw [w'.region_inj (hregion'.symm.trans hregion)] at hbeyond
        omega
    | _ => rfl

/-- Settles O38, one kind of target at a time. -/
theorem addressMap : Obligations.AddressMap := fun b a =>
  ⟨decodeAddr_eq_misaligned_iff b a, decodeAddr_eq_csr_iff b a, decodeAddr_eq_unmapped_iff b a⟩

/-- The address of an existing window word selects it (R62). -/
theorem decodeAddr_windowAddr {b : Build} {w : Window} {ch idx : Nat} (hch : ch < b.nch)
    (hidx : idx < w.depth b) : decodeAddr b (w.addr ch idx) = .win w ch idx :=
  (decodeAddr_eq_win_iff b _ w ch idx).2 ⟨w.addr_toNat b hch hidx, hch, hidx⟩

/-- Settles O37: the address that selects a window word has the word's fields, and no other bits. -/
theorem windowAddressSelectsWord : Obligations.WindowAddressSelectsWord := by
  intro b w ch idx
  refine ⟨decodeAddr_windowAddr, fun addr h => ?_⟩
  obtain ⟨hn, hch, hidx⟩ := (decodeAddr_eq_win_iff b addr w ch idx).1 h
  exact ⟨BitVec.eq_of_toNat_eq (hn.trans (w.addr_toNat b hch hidx).symm), hch, hidx⟩

end Sys2Proof.Machine
end

section
/-!
The bus: a step runs the transaction it takes (20_memory.md R69, R70), what a read and a write do to each
kind of target (R64 to R67), and an IO word across a command (R70, 45_bus.md R212).
-/

namespace Sys2Proof.Machine

open Sys2Proof

/-! ## A step runs the transaction it takes -/

theorem step_of_txn {s : State} {t : Txn} {rest : List Event} (h : s.pending = .txn t :: rest) :
    step s = exec (decodeTxn t) (s.take rest) := by
  unfold step
  rw [h]

/-- A command word reaches the block as a write to CMD, which performs what it decodes to; a transaction
decodes as it is. -/
theorem exec_toTxn {s : State} {e : Encoding} {i : Instr} (h : decode s.build e = .ok i) :
    exec (decodeTxn e.toTxn) s = exec i s := by
  cases e with
  | cmd32 w =>
    rw [decodeTxn_toTxn_cmd32]
    exact cmdWritesIssueCommands s w i h
  | bus33 header data => exact congrArg (exec · s) (Except.ok.inj h)

/-- Settles O7. Taking an event changes no build, so the word decodes alike before and after. -/
theorem stepRunsDecodedInstruction : Obligations.StepRunsDecodedInstruction :=
  fun s _ rest _ hp hd => (step_of_txn hp).trans (exec_toTxn (s := s.take rest) hd)

/-- Settles O8: placing a transaction first changes nothing but the pending events. -/
theorem stepRunsPlacedWord : Obligations.StepRunsPlacedWord :=
  fun s nbits w i hd => stepRunsDecodedInstruction (s.withFetchWord nbits w) _ s.pending i rfl hd

/-! ## Reads and writes -/

theorem exec_busRd_error {s : State} {addr : Word}
    (h : decodeAddr s.build addr = .misaligned ∨ decodeAddr s.build addr = .unmapped) :
    exec (.busRd addr) s = .next ((s.raise .bus).answer 0) := by
  show Host.Outcome.next ((memRead addr s).2.answer (memRead addr s).1) = _
  rcases h with h | h <;> simp only [memRead, h]

theorem exec_busWr_error {s : State} {addr : Word}
    (h : decodeAddr s.build addr = .misaligned ∨ decodeAddr s.build addr = .unmapped) (v : Word) :
    exec (.busWr addr v) s = .next (s.raise .bus) := by
  show memWrite addr v s = _
  rcases h with h | h <;> simp only [memWrite, h]

theorem exec_busRd_win {s : State} {addr : Word} {w : Window} {ch idx : Nat}
    (h : decodeAddr s.build addr = .win w ch idx) :
    exec (.busRd addr) s = .next (s.answer (s.read w.arr ch idx)) := by
  show Host.Outcome.next ((memRead addr s).2.answer (memRead addr s).1) = _
  simp only [memRead, h]

theorem exec_busWr_win {s : State} {addr : Word} {w : Window} {ch idx : Nat}
    (h : decodeAddr s.build addr = .win w ch idx) (v : Word) :
    exec (.busWr addr v) s = .next (writeWindow w ch idx v s) := by
  show memWrite addr v s = _
  simp only [memWrite, h]

/-- Every register but CMD and ARG is read-only (20_memory.md R67). -/
theorem writeCsr_readOnly {r : Csr} (hcmd : r ≠ .cmd) (harg : r ≠ .arg) (v : Word) (s : State) :
    writeCsr r v s = .next (s.raise .bus) := by
  cases r with
  | cmd => exact absurd rfl hcmd
  | arg => exact absurd rfl harg
  | _ => rfl

/-- Every window but IO is read-only (20_memory.md R67). -/
theorem writeWindow_readOnly {w : Window} (h : w ≠ .io) (ch idx : Nat) (v : Word) (s : State) :
    writeWindow w ch idx v s = s.raise .bus := by
  cases w with
  | io => exact absurd rfl h
  | _ => rfl

/-- Settles O39, target by target. -/
theorem busErrors : Obligations.BusErrors := by
  intro s addr v
  refine ⟨fun h => ⟨exec_busRd_error h, exec_busWr_error h v⟩, fun r h hcmd harg => ?_,
    fun w ch idx h hw => ?_, exec_busRd_csr⟩
  · exact (exec_busWr_csr h v).trans (writeCsr_readOnly hcmd harg v s)
  · rw [exec_busWr_win h, writeWindow_readOnly hw]
    rfl

/-- Settles O43: the address selects the word, and a word that holds a value reads as it. -/
theorem windowReads : Obligations.WindowReads :=
  fun _ _ _ _ hch hidx => ⟨_, exec_busRd_win (decodeAddr_windowAddr hch hidx), fun _ => State.read_of_peek⟩

/-- A write of an existing IO word stores it (20_memory.md R67). -/
theorem exec_busWr_io {s : State} {ch i : Nat} (hch : ch < s.build.nch) (hi : i < s.build.iod)
    (v : Word) : exec (.busWr (Window.io.addr ch i) v) s = .next (s.write .io ch i v) :=
  exec_busWr_win (decodeAddr_windowAddr (w := .io) hch hi) v

/-- Settles O45: one storage write, and word numbers tell words apart. -/
theorem ioWrites : Obligations.IoWrites := by
  intro s ch i v hch hi
  refine ⟨_, exec_busWr_io hch hi v, rfl, State.peek_write_self s .io ch i v, fun ch' k hk hne => ?_⟩
  have hi16 : i < 65536 := lt_of_lt_of_le hi (Window.depth_le s.build .io)
  rw [State.peek_write, if_neg]
  rintro ⟨-, hkey⟩
  exact hne ((cellKey_inj hk hi16).1 hkey)

/-! ## An IO word across a command -/

/-- No instruction touches the events the host has pending. -/
theorem Effect.pending_eq {op : Option Op} {s t : State} (h : Effect op s t) :
    t.pending = s.pending := by
  cases h with
  | block _ n =>
    obtain ⟨u, hu⟩ := s.block_frame n.toNat
    rw [hu]
  | setupRejected => exact s.rejectSetup_pending _ _
  | _ => rfl

/-- A command returns nothing to the host (00_scope.md R18). -/
theorem Effect.returned_eq {op : Op} {s t : State} (h : Effect (some op) s t) :
    t.returned = s.returned := by
  cases h with
  | block _ n =>
    obtain ⟨u, hu⟩ := s.block_frame n.toNat
    rw [hu]
  | setupRejected => exact s.rejectSetup_returned _ _
  | _ => rfl

/-- A write to CMD that issues no SETUP leaves the build, io, the pending events and what the host has
seen (43_block_scheduler.md R168). -/
theorem executeCommand_keeps_io {s : State} {w : Word}
    (h : ∀ d, decodeCmd s.build w = .ok d → d.op ≠ .setup) :
    ∃ t, executeCommand w s = .next t ∧ t.build = s.build ∧ t.io = s.io ∧
      t.pending = s.pending ∧ t.returned = s.returned := by
  rcases executeCommand_cases w s with ⟨-, he⟩ | ⟨d, hd, he⟩
  · exact ⟨_, he, rfl, rfl, rfl, rfl⟩
  · obtain ⟨t, ht, heffect⟩ := effect_command d s
    have hwritten := WrittenOnlyBy.of_effect heffect
    have hio : t.io = s.io := by
      by_contra hne
      rcases hwritten.io hne with hop | hop
      · exact h d hd (Option.some.inj hop)
      · cases hop
    exact ⟨t, he.trans ht, hwritten.build, hio, heffect.pending_eq, heffect.returned_eq⟩

/-! ## The three transactions of the round trip, a step each -/

theorem step_busWr_io {s : State} {ch i : Nat} {v : Word} {rest : List Event}
    (hch : ch < s.build.nch) (hi : i < s.build.iod)
    (hp : s.pending = .txn (encode (.busWr (Window.io.addr ch i) v)).toTxn :: rest) :
    ∃ t, step s = .next t ∧ t.build = s.build ∧ t.pending = rest ∧ t.returned = s.returned ∧
      t.peek .io ch i = some v := by
  have hd : decodeTxn (encode (.busWr (Window.io.addr ch i) v)).toTxn =
      .busWr (Window.io.addr ch i) v := by
    simp [encode, Encoding.toTxn, decodeTxn]
  rw [step_of_txn hp, hd]
  exact ⟨_, exec_busWr_io (s := s.take rest) hch hi v, rfl, rfl, rfl, State.peek_write_self _ _ _ _ _⟩

theorem step_cmd_keeps_io {s : State} {w : Word} {rest : List Event}
    (h : ∀ d, decodeCmd s.build w = .ok d → d.op ≠ .setup)
    (hp : s.pending = .txn (Encoding.cmd32 w).toTxn :: rest) :
    ∃ t, step s = .next t ∧ t.build = s.build ∧ t.io = s.io ∧ t.pending = rest ∧
      t.returned = s.returned := by
  rw [step_of_txn hp, decodeTxn_toTxn_cmd32, exec_busWr_cmd]
  exact executeCommand_keeps_io (s := s.take rest) h

theorem step_busRd_io {s : State} {ch i : Nat} {v : Word} {rest : List Event}
    (hch : ch < s.build.nch) (hi : i < s.build.iod) (hv : s.peek .io ch i = some v)
    (hp : s.pending = .txn (encode (.busRd (Window.io.addr ch i))).toTxn :: rest) :
    ∃ t, step s = .next t ∧ t.pending = rest ∧ t.returned = s.returned ++ [v] := by
  have hd : decodeTxn (encode (.busRd (Window.io.addr ch i))).toTxn = .busRd (Window.io.addr ch i) := by
    simp [encode, Encoding.toTxn, decodeTxn]
  have hread : (s.take rest).read .io ch i = v := State.read_of_peek hv
  rw [step_of_txn hp, hd,
    exec_busRd_win (s := s.take rest) (decodeAddr_windowAddr (w := .io) hch hi)]
  exact ⟨_, rfl, rfl, congrArg (s.returned ++ [·]) hread⟩

/-- A run whose first step is known. -/
theorem run_succ_of_step {s t : State} (h : step s = .next t) (k : Nat) :
    Sys2Proof.core.run (k + 1) s = Sys2Proof.core.run k t := by
  have hcore : Sys2Proof.core.step s = .next t := h
  simp only [Host.Core.run, hcore]

/-- Settles O47: the write stores the word, the command leaves io, and the read returns the word. -/
theorem ioReadsBackAcrossCommand : Obligations.IoReadsBackAcrossCommand := by
  intro s ch i v w rest hch hi hw hp
  obtain ⟨t, hwrite, hbuild, hpending, hreturned, hword⟩ := step_busWr_io hch hi hp
  rw [← hbuild] at hch hi hw
  obtain ⟨u, hcommand, hbuild', hio, hpending', hreturned'⟩ := step_cmd_keeps_io hw hpending
  rw [← hbuild'] at hch hi
  rw [← State.peek_congr (a := .io) hio] at hword
  obtain ⟨x, hread, hrest, hanswer⟩ := step_busRd_io hch hi hword hpending'
  refine ⟨x, ?_, by rw [hanswer, hreturned', hreturned], hrest⟩
  rw [run_succ_of_step hwrite, run_succ_of_step hcommand, run_succ_of_step hread]
  rfl

end Sys2Proof.Machine
end

section
/-!
Encoding and decoding (30_encoding.md). `decodeCmd_eq_ok_iff` says that decode_cmd answers a command
exactly for that command's word; the statements about words are read off it field by field.
-/

namespace Sys2Proof

open Sys2Proof.Machine

/-! ## The command table (R91, R93, R94) -/

/-- The number of the opcode (30_encoding.md R93). -/
def Op.code : Op → BitVec 4
  | .nop => 0
  | .setup => 1
  | .block => 2
  | .teardown => 3
  | .ringWrite => 4
  | .ringRead => 5
  | .clrerr => 6

/-- CH is an operand of the command; where it is not, CH must be zero (R94). -/
def Op.usesCh : Op → Bool
  | .setup | .ringWrite | .ringRead => true
  | .nop | .block | .teardown | .clrerr => false

/-- IMM is an operand of the command; where it is not, IMM must be zero (R94). -/
def Op.usesImm : Op → Bool
  | .setup | .block | .ringWrite | .ringRead => true
  | .nop | .teardown | .clrerr => false

/-- The word of a command: its fields, with RSV zero (R91). -/
def Command.word (d : Command) : Word := cmdWord d.op.code d.ch d.imm

/-- The fields of a command that has a legal word: the unused ones are zero (R94), and a RING command's
CH names a channel (R96). -/
structure Command.Legal (b : Build) (d : Command) : Prop where
  ch_unused : d.op.usesCh = false → d.ch = 0
  imm_unused : d.op.usesImm = false → d.imm = 0
  channel : d.op = .ringWrite ∨ d.op = .ringRead → d.ch.toNat < b.nch

theorem Command.legal_iff (b : Build) (d : Command) :
    d.Legal b ↔ (d.op.usesCh = false → d.ch = 0) ∧ (d.op.usesImm = false → d.imm = 0) ∧
      (d.op = .ringWrite ∨ d.op = .ringRead → d.ch.toNat < b.nch) :=
  ⟨fun ⟨hch, himm, hchannel⟩ => ⟨hch, himm, hchannel⟩,
    fun ⟨hch, himm, hchannel⟩ => ⟨hch, himm, hchannel⟩⟩

theorem Op.matchWord_eq (op : Op) : op.matchWord = cmdWord op.code 0 0 := by cases op <;> rfl

theorem Op.opField_maskWord (op : Op) : opField op.maskWord = BitVec.allOnes 4 := by cases op <;> rfl

theorem Op.chField_maskWord (op : Op) :
    chField op.maskWord = if op.usesCh then 0 else BitVec.allOnes 4 := by cases op <;> rfl

theorem Op.rsvField_maskWord (op : Op) : rsvField op.maskWord = BitVec.allOnes 8 := by
  cases op <;> rfl

theorem Op.immField_maskWord (op : Op) :
    immField op.maskWord = if op.usesImm then 0 else BitVec.allOnes 16 := by cases op <;> rfl

/-! ## Words by their fields -/

theorem eq_iff_fields (v w : Word) :
    v = w ↔ opField v = opField w ∧ chField v = chField w ∧ rsvField v = rsvField w ∧
      immField v = immField w := by
  refine ⟨fun h => by simp [h], fun ⟨hop, hch, hrsv, himm⟩ => ?_⟩
  rw [← cmdWord_fields v, ← cmdWord_fields w, hop, hch, hrsv, himm]

theorem opField_and (v w : Word) : opField (v &&& w) = opField v &&& opField w := BitVec.extractLsb'_and

theorem chField_and (v w : Word) : chField (v &&& w) = chField v &&& chField w := BitVec.extractLsb'_and

theorem rsvField_and (v w : Word) : rsvField (v &&& w) = rsvField v &&& rsvField w := BitVec.extractLsb'_and

theorem immField_and (v w : Word) : immField (v &&& w) = immField v &&& immField w := BitVec.extractLsb'_and

/-- A word matches its command's row: OP is the opcode and each must-be-zero field is zero (R94). -/
theorem matches_iff_fields (w : Word) (op : Op) :
    w &&& op.maskWord = op.matchWord ↔
      opField w = op.code ∧ (op.usesCh = false → chField w = 0) ∧ rsvField w = 0 ∧
        (op.usesImm = false → immField w = 0) := by
  have hop : opField (w &&& op.maskWord) = opField w := by
    rw [opField_and, op.opField_maskWord, BitVec.and_allOnes]
  have hch : chField (w &&& op.maskWord) = if op.usesCh then 0 else chField w := by
    rw [chField_and, op.chField_maskWord]
    split
    · exact BitVec.and_zero
    · exact BitVec.and_allOnes
  have hrsv : rsvField (w &&& op.maskWord) = rsvField w := by
    rw [rsvField_and, op.rsvField_maskWord, BitVec.and_allOnes]
  have himm : immField (w &&& op.maskWord) = if op.usesImm then 0 else immField w := by
    rw [immField_and, op.immField_maskWord]
    split
    · exact BitVec.and_zero
    · exact BitVec.and_allOnes
  rw [op.matchWord_eq, eq_iff_fields, hop, hch, hrsv, himm]
  cases op.usesCh <;> cases op.usesImm <;> simp

theorem eq_word_iff (w : Word) (d : Command) :
    w = d.word ↔ opField w = d.op.code ∧ chField w = d.ch ∧ rsvField w = 0 ∧ immField w = d.imm := by
  simp [Command.word, eq_iff_fields w]

/-- The word of a command as a number (R91). -/
theorem word_toNat (d : Command) :
    d.word.toNat = d.op.code.toNat * 2 ^ 28 + d.ch.toNat * 2 ^ 24 + d.imm.toNat := by
  simp only [Command.word, cmdWord, toNat_append_add, BitVec.toNat_ofNat]
  omega

/-- decode_cmd answers a command exactly for the word of that command, and only if it is legal (R94 to
R96). -/
theorem decodeCmd_eq_ok_iff (b : Build) (w : Word) (d : Command) :
    decodeCmd b w = .ok d ↔ w = d.word ∧ d.Legal b := by
  rw [decodeCmd_ok_iff, ← BitVec.toNat_inj (x := w), word_toNat]
  obtain ⟨op, ch, imm⟩ := d
  have hw := w.isLt
  have hch := ch.isLt
  have himm := imm.isLt
  simp only [Command.legal_iff, ← BitVec.toNat_inj (x := ch), ← BitVec.toNat_inj (x := imm),
    chField_toNat, immField_toNat]
  cases op <;> simp [Op.code, Op.usesCh, Op.usesImm] <;> omega

/-- Settles O3: both sides say that OP is the opcode, the must-be-zero fields are zero, and a RING
command's CH names a channel. -/
theorem decodeFollowsMatchAndMask : Obligations.DecodeFollowsMatchAndMask := by
  intro b w op
  rw [matches_iff_fields, ← chField_toNat]
  constructor
  · rintro ⟨d, hd, rfl⟩
    obtain ⟨hw, hlegal⟩ := (decodeCmd_eq_ok_iff b w d).mp hd
    obtain ⟨hop, hch, hrsv, himm⟩ := (eq_word_iff w d).mp hw
    rw [hch, himm]
    exact ⟨⟨hop, hlegal.ch_unused, hrsv, hlegal.imm_unused⟩, hlegal.channel⟩
  · rintro ⟨⟨hop, hch, hrsv, himm⟩, hchannel⟩
    exact ⟨⟨op, chField w, immField w⟩, (decodeCmd_eq_ok_iff ..).mpr
      ⟨(eq_word_iff ..).mpr ⟨hop, rfl, hrsv, rfl⟩, hch, himm, hchannel⟩, rfl⟩

/-! ## Instructions and their encodings (R92, R95, R100) -/

/-- A command word decodes to the instruction of a legal command whose word it is. -/
theorem decode_cmd32_eq_ok_iff (b : Build) (w : Word) (i : Instr) :
    decode b (.cmd32 w) = .ok i ↔ ∃ d : Command, w = d.word ∧ d.Legal b ∧ d.toInstr = i := by
  have hmap : decode b (.cmd32 w) = .ok i ↔ ∃ d, decodeCmd b w = .ok d ∧ d.toInstr = i := by
    rw [decode]
    cases decodeCmd b w <;> simp [Except.map]
  simp only [hmap, decodeCmd_eq_ok_iff, and_assoc]

/-- A legal command's instruction is encoded as the command's word. -/
theorem encode_toInstr {b : Build} {d : Command} (h : d.Legal b) : encode d.toInstr = .cmd32 d.word := by
  obtain ⟨op, ch, imm⟩ := d
  obtain ⟨hch, himm, -⟩ := h
  cases op with
  | nop | teardown | clrerr =>
    obtain rfl : ch = 0 := hch rfl
    obtain rfl : imm = 0 := himm rfl
    rfl
  | block =>
    obtain rfl : ch = 0 := hch rfl
    rfl
  | setup | ringWrite | ringRead => simp [Command.toInstr, encode, Command.word, Op.code]

theorem wellFormed_toInstr {b : Build} {d : Command} (h : d.Legal b) : wellFormed b d.toInstr = true := by
  obtain ⟨op, ch, imm⟩ := d
  cases op with
  | setup =>
    have hch := ch.isLt
    simp only [Command.toInstr, wellFormed, Bool.and_eq_true, decide_eq_true_eq]
    omega
  | ringWrite | ringRead => simpa [Command.toInstr, wellFormed] using h.channel
  | nop | block | teardown | clrerr => rfl

/-- A channel of the build fits CH (00_scope.md R7). -/
theorem toNat_ofNat_of_lt_nch {b : Build} {ch : Nat} (h : ch < b.nch) :
    (BitVec.ofNat 4 ch).toNat = ch := by
  obtain ⟨-, ⟨-, hnch⟩, -⟩ := b.legal
  rw [BitVec.toNat_ofNat, Nat.mod_eq_of_lt (by omega)]

/-- Every well-formed instruction is a legal command's, or a transaction's (R92, R96, R100). -/
theorem wellFormed_cases {b : Build} {i : Instr} (h : wellFormed b i = true) :
    (∃ d : Command, d.Legal b ∧ d.toInstr = i) ∨ (∃ addr, i = .busRd addr) ∨
      ∃ addr data, i = .busWr addr data := by
  cases i with
  | nop => exact .inl ⟨⟨.nop, 0, 0⟩, ⟨fun _ => rfl, fun _ => rfl, by simp⟩, rfl⟩
  | setup nch maxblk =>
    simp only [wellFormed, Bool.and_eq_true, decide_eq_true_eq] at h
    refine .inl ⟨⟨.setup, BitVec.ofNat 4 (nch - 1), maxblk⟩, ⟨nofun, nofun, by simp⟩, ?_⟩
    simp only [Command.toInstr, BitVec.toNat_ofNat, Instr.setup.injEq, and_true]
    omega
  | block n => exact .inl ⟨⟨.block, 0, n⟩, ⟨fun _ => rfl, nofun, by simp⟩, rfl⟩
  | teardown => exact .inl ⟨⟨.teardown, 0, 0⟩, ⟨fun _ => rfl, fun _ => rfl, by simp⟩, rfl⟩
  | ringWrite ch pos =>
    have hch : ch < b.nch := of_decide_eq_true h
    have hnat := toNat_ofNat_of_lt_nch hch
    exact .inl ⟨⟨.ringWrite, BitVec.ofNat 4 ch, pos⟩, ⟨nofun, nofun, fun _ => hnat.trans_lt hch⟩,
      congrArg (Instr.ringWrite · pos) hnat⟩
  | ringRead ch pos =>
    have hch : ch < b.nch := of_decide_eq_true h
    have hnat := toNat_ofNat_of_lt_nch hch
    exact .inl ⟨⟨.ringRead, BitVec.ofNat 4 ch, pos⟩, ⟨nofun, nofun, fun _ => hnat.trans_lt hch⟩,
      congrArg (Instr.ringRead · pos) hnat⟩
  | clrerr => exact .inl ⟨⟨.clrerr, 0, 0⟩, ⟨fun _ => rfl, fun _ => rfl, by simp⟩, rfl⟩
  | busRd addr => exact .inr (.inl ⟨addr, rfl⟩)
  | busWr addr data => exact .inr (.inr ⟨addr, data, rfl⟩)

/-- Settles O1: a command is encoded as its word, which decodes to it (`decode_cmd32_eq_ok_iff`); a
transaction's header keeps WE and ADDR. -/
theorem decodeOfEncode : Obligations.DecodeOfEncode := by
  intro b i h
  obtain ⟨d, hd, rfl⟩ | ⟨addr, rfl⟩ | ⟨addr, data, rfl⟩ := wellFormed_cases h
  · rw [encode_toInstr hd]
    exact (decode_cmd32_eq_ok_iff ..).mpr ⟨d, rfl, hd, rfl⟩
  · simp [decode, encode, decodeTxn]
  · simp [decode, encode, decodeTxn]

/-- A header is WE and ADDR (R100). -/
theorem header_fields (h : BitVec 33) : BitVec.ofBool (h.getLsbD 32) ++ h.extractLsb' 0 32 = h := by
  apply BitVec.eq_of_getLsbD_eq
  intro i hi
  rw [BitVec.getLsbD_append]
  split
  · next hlt => simp [hlt]
  · obtain rfl : i = 32 := by omega
    simp

/-- A transaction's header is the one its instruction is encoded with; the data phase of a read is
encoded as 0 (R100; log 16). -/
theorem encode_decodeTxn (h : BitVec 33) (d : Word) :
    encode (decodeTxn ⟨h, d⟩) = .bus33 h (if h.getLsbD 32 then d else 0) := by
  have hheader := header_fields h
  unfold decodeTxn Txn.we Txn.addr
  cases hwe : h.getLsbD 32 with
  | false => rw [hwe] at hheader; exact congrArg (Encoding.bus33 · 0) hheader
  | true => rw [hwe] at hheader; exact congrArg (Encoding.bus33 · d) hheader

theorem wellFormed_decodeTxn (b : Build) (t : Txn) : wellFormed b (decodeTxn t) = true := by
  unfold decodeTxn
  cases t.we <;> rfl

/-- Settles O2: a word that decodes is the word of a legal command (`decode_cmd32_eq_ok_iff`), and a
header is its WE and ADDR. -/
theorem encodeOfDecode : Obligations.EncodeOfDecode := by
  constructor
  · intro b w i h
    obtain ⟨d, rfl, hd, rfl⟩ := (decode_cmd32_eq_ok_iff b w i).mp h
    exact ⟨wellFormed_toInstr hd, encode_toInstr hd⟩
  · intro b h d i hi
    obtain rfl : decodeTxn ⟨h, d⟩ = i := Except.ok.inj hi
    exact ⟨wellFormed_decodeTxn b _, encode_decodeTxn h d⟩

/-- Settles O6, by running the decoder on each word. -/
theorem sampleWordsDecode : Obligations.SampleWordsDecode := by
  unfold Obligations.SampleWordsDecode
  decide

/-! ## Operands (R92) -/

/-- Whatever a word decodes to takes its operands from the word's own CH and IMM. -/
theorem toInstr_fields_of_decode {b : Build} {w : Word} {i : Instr} (h : decode b (.cmd32 w) = .ok i) :
    ∃ op, i = (Command.mk op (chField w) (immField w)).toInstr := by
  obtain ⟨⟨op, ch, imm⟩, hw, -, rfl⟩ := (decode_cmd32_eq_ok_iff b w i).mp h
  obtain ⟨-, rfl, -, rfl⟩ := (eq_word_iff w _).mp hw
  exact ⟨op, rfl⟩

/-- Settles O4: the operands are CH and IMM of the word (`toInstr_fields_of_decode`), which are these
numbers. -/
theorem operandsAreUnsignedFields : Obligations.OperandsAreUnsignedFields := by
  intro b w
  have hch := chField_toNat w
  have himm := immField_toNat w
  refine ⟨fun nch maxblk h => ?_, fun n h => ?_, fun ch pos h => ?_, fun ch pos h => ?_⟩
  all_goals
    obtain ⟨op, hop⟩ := toInstr_fields_of_decode h
    cases op <;> cases hop
  · exact ⟨congrArg (· + 1) hch, himm⟩
  · exact himm
  · exact ⟨hch, himm⟩
  · exact ⟨hch, himm⟩

/-! ## Illegal words (R97, R98) -/

/-- Every opcode below 7 is a command's (R93). -/
theorem exists_code_of_lt {x : BitVec 4} (h : x.toNat < 7) : ∃ op : Op, x = op.code := by
  have hall : ∀ x : BitVec 4, x.toNat < 7 → x ∈ [Op.nop, .setup, .block, .teardown, .ringWrite,
    .ringRead, .clrerr].map Op.code := by decide
  obtain ⟨op, -, hop⟩ := List.mem_map.mp (hall x h)
  exact ⟨op, hop.symm⟩

/-- Of a command's opcode, the illegal words are those whose fields are not the command's. -/
theorem illegalWord_iff_of_opField {w : Word} {op : Op} (b : Build) (h : opField w = op.code) :
    IllegalWord b w ↔
      ¬ (rsvField w = 0 ∧ Command.Legal b ⟨op, chField w, immField w⟩) := by
  have hop : w.toNat / 2 ^ 28 = op.code.toNat := by rw [← opField_toNat, h]
  simp only [IllegalWord, hop, Command.legal_iff, ← BitVec.toNat_inj (x := rsvField w),
    ← BitVec.toNat_inj (x := chField w), ← BitVec.toNat_inj (x := immField w), chField_toNat,
    rsvField_toNat, immField_toNat]
  cases op <;> simp [Op.code, Op.usesCh, Op.usesImm] <;> omega

/-- The illegal words are those that no command is decoded from (R97). -/
theorem illegalWord_iff (b : Build) (w : Word) : IllegalWord b w ↔ ∀ d, decodeCmd b w ≠ .ok d := by
  constructor
  · intro hill d hd
    obtain ⟨hw, hlegal⟩ := (decodeCmd_eq_ok_iff b w d).mp hd
    obtain ⟨hop, hch, hrsv, himm⟩ := (eq_word_iff w d).mp hw
    refine (illegalWord_iff_of_opField b hop).mp hill ⟨hrsv, ?_⟩
    rwa [hch, himm]
  · intro hnone
    by_cases hlt : (opField w).toNat < 7
    · obtain ⟨op, hop⟩ := exists_code_of_lt hlt
      refine (illegalWord_iff_of_opField b hop).mpr fun ⟨hrsv, hlegal⟩ => ?_
      exact hnone _ ((decodeCmd_eq_ok_iff ..).mpr ⟨(eq_word_iff ..).mpr ⟨hop, rfl, hrsv, rfl⟩, hlegal⟩)
    · rw [opField_toNat] at hlt
      exact .inl (Nat.le_of_not_lt hlt)

/-- ERR_ILLEGAL is bit 0 of the error bits (60_exceptions.md R232). -/
theorem raise_illegal (s : State) : s.raise .illegal = { s with errs := s.errs ||| 1 } := rfl

/-- Settles O5: an illegal word is one that does not decode (`illegalWord_iff`), and issuing such a word
only raises ERR_ILLEGAL. -/
theorem illegalWordsSetOnlyErrIllegal : Obligations.IllegalWordsSetOnlyErrIllegal := by
  intro s w
  refine ⟨illegalWord_iff s.build w, fun hill => ?_⟩
  rw [exec_busWr_cmd, ← raise_illegal]
  rcases executeCommand_cases w s with ⟨-, he⟩ | ⟨d, hd, -⟩
  · exact he
  · exact absurd hd ((illegalWord_iff s.build w).mp hill d)

/-! ## A RING command on no channel (40_ringbuffer.md R114, R116) -/

/-- A RING command on no channel raises ERR_ILLEGAL before the LIFE check (60_exceptions.md R234). -/
theorem issueRing_of_no_channel {s : State} {ch : Nat} (h : s.build.nch ≤ ch) (op : Op)
    (f : State → State) : s.issueRing op ch f = s.raise .illegal := by
  rcases s.issueRing_cases op ch f with ⟨hch, -⟩ | ⟨-, he⟩
  · exact absurd hch (Nat.not_lt.mpr h)
  · exact he

/-- Settles O23, for both RING commands by `issueRing_of_no_channel`. -/
theorem ringChannelOutOfRangeIsIllegal : Obligations.RingChannelOutOfRangeIsIllegal := by
  intro s ch pos h
  rw [← raise_illegal]
  exact ⟨congrArg _ (issueRing_of_no_channel h _ _), congrArg _ (issueRing_of_no_channel h _ _)⟩

end Sys2Proof
end

section
/-!
The ring buffer (40_ringbuffer.md): the RING commands on an existing channel, one ring row as a list of C
words, and the stream a channel has ingested (R117). A BLOCK shifts its samples into the row sample by
sample; `HoldsStream` follows the row from SETUP on.
-/

namespace Sys2Proof.Machine

open Sys2Proof

/-! ## The ring commands on an existing channel -/

/-- A ring command that is let through performs its operation. -/
theorem State.issueRing_of_allowed {s : State} {op : Op} {ch : Nat} (ha : allowed op s.life = true)
    (hch : ch < s.build.nch) (f : State → State) : s.issueRing op ch f = f s := by
  simp [State.issueRing, State.issue, ha, hch]

/-- A ring command that is not let through only raises an error (60_exceptions.md R234). -/
theorem State.issueRing_of_refused {s : State} {op : Op} {ch : Nat}
    (h : ¬ (allowed op s.life = true ∧ ch < s.build.nch)) (f : State → State) :
    ∃ e, s.issueRing op ch f = s.raise e := by
  rcases s.issueRing_cases op ch f with ⟨hch, hring⟩ | ⟨-, hring⟩
  · rcases s.issue_cases op f with ⟨ha, -⟩ | ⟨-, hissue⟩
    · exact absurd ⟨ha, hch⟩ h
    · exact ⟨_, hring.trans hissue⟩
  · exact ⟨_, hring⟩

/-- RING_WRITE on an existing channel, in STREAMING (R114). -/
theorem exec_ringWrite_streaming {s : State} {ch : Nat} (hl : s.life = .streaming)
    (hch : ch < s.build.nch) (pos : Half) :
    exec (.ringWrite ch pos) s = .next (s.ringWrite ch s.arg pos.toNat) :=
  congrArg _ (State.issueRing_of_allowed ((allowed_ringWrite_iff _).2 hl) hch _)

/-- RING_READ on an existing channel, in STREAMING (R116). -/
theorem exec_ringRead_streaming {s : State} {ch : Nat} (hl : s.life = .streaming)
    (hch : ch < s.build.nch) (pos : Half) :
    exec (.ringRead ch pos) s = .next { s with result := s.ringRead ch pos.toNat } :=
  congrArg _ (State.issueRing_of_allowed ((allowed_ringRead_iff _).2 hl) hch _)

/-- Settles O20: what RingWrite does to every storage word is `State.peek_ringWrite`. -/
theorem ringWriteStoresOneWord : Obligations.RingWriteStoresOneWord := by
  intro s ch pos hl hch
  refine ⟨_, exec_ringWrite_streaming hl hch pos, rfl, ?_, fun ch' k hk hne => ?_⟩
  · rw [State.peek_ringWrite _ _ _ _ _ _ (mask_lt_65536 _ _), if_pos ⟨rfl, rfl, rfl⟩]
  · rw [State.peek_ringWrite _ _ _ _ _ _ hk, if_neg fun h => hne h.2]

/-- Settles O21: the slot is the position modulo C (`mask_eq_mod`), and a word that holds a value reads
as it. -/
theorem ringReadReturnsSlot : Obligations.RingReadReturnsSlot := by
  intro s ch pos hl hch
  refine ⟨_, exec_ringRead_streaming hl hch pos, fun u hu => ?_⟩
  rw [← mask_eq_mod] at hu
  exact State.read_of_peek hu

/-- RingRead after RingWrite: the word written where both select one slot of one row (R111, R112). -/
theorem State.ringRead_ringWrite (s : State) (ch p : Nat) (v : Word) (ch' q : Nat) :
    (s.ringWrite ch v p).ringRead ch' q =
      if ch' = ch ∧ q % s.build.cap = p % s.build.cap then v else s.ringRead ch' q := by
  have hpeek := s.peek_ringWrite ch p v .ring ch' (mask_lt_65536 s.build q)
  simp only [mask_eq_mod, true_and] at hpeek
  have hbuild : (s.ringWrite ch v p).build = s.build := rfl
  have hepoch : (s.ringWrite ch v p).epoch = s.epoch := rfl
  simp only [State.ringRead, State.read, hbuild, hepoch, mask_eq_mod, hpeek]
  split <;> rfl

/-- Settles O22 by `State.ringRead_ringWrite`: the write keeps LIFE and the build, so the read is let
through too. -/
theorem ringReadAfterRingWrite : Obligations.RingReadAfterRingWrite := by
  intro s ch ch' p q hl hch hch'
  exact ⟨_, _, exec_ringWrite_streaming hl hch p,
    exec_ringRead_streaming (s := s.ringWrite ch s.arg p.toNat) hl hch' q,
    s.ringRead_ringWrite ch p.toNat s.arg ch' q.toNat⟩

/-! ## A row of the ring, from a position on -/

/-- The C words of a channel's ring from position `p` on; `State.history` is the row from WP. -/
def State.ringRow (s : State) (ch p : Nat) : List Word :=
  (List.range s.build.cap).map fun m => s.ringRead ch (p + m)

theorem State.history_eq_ringRow (s : State) (ch : Nat) : s.history ch = s.ringRow ch s.wp.toNat := rfl

@[simp] theorem State.length_ringRow (s : State) (ch p : Nat) : (s.ringRow ch p).length = s.build.cap := by
  simp [State.ringRow]

@[simp] theorem State.getElem_ringRow (s : State) (ch p : Nat) {m : Nat}
    (h : m < (s.ringRow ch p).length) : (s.ringRow ch p)[m] = s.ringRead ch (p + m) := by
  simp [State.ringRow]

/-- Positions are taken modulo C (R110). -/
theorem State.ringRow_mod (s : State) (ch p : Nat) :
    s.ringRow ch (p % s.build.cap) = s.ringRow ch p := by
  simp only [State.ringRow, State.ringRead, mask_eq_mod, Nat.mod_add_mod]

/-- Writing the oldest slot of a row makes it the newest: the row from the next position on has lost its
first word and gained the written one. -/
theorem State.ringRow_shift {s t : State} {ch p : Nat} {v : Word} (hb : t.build = s.build)
    (hread : ∀ q, t.ringRead ch q =
      if q % s.build.cap = p % s.build.cap then v else s.ringRead ch q) :
    t.ringRow ch (p + 1) = (s.ringRow ch p ++ [v]).drop 1 := by
  refine List.ext_getElem (by simp [hb]) fun m hm _ => ?_
  have hm : m < s.build.cap := by simpa [hb] using hm
  have hslot : (p + 1 + m) % s.build.cap = p % s.build.cap ↔ m + 1 = s.build.cap := by
    have hmod : p + (m + 1) ≡ p + 0 [MOD s.build.cap] ↔ s.build.cap ∣ m + 1 := by
      rw [Nat.ModEq.add_iff_left rfl, Nat.modEq_zero_iff_dvd]
    rw [Nat.add_assoc, Nat.add_comm 1 m]
    refine hmod.trans ⟨fun hdvd => ?_, fun heq => ⟨1, by omega⟩⟩
    have := Nat.le_of_dvd (Nat.succ_pos m) hdvd
    omega
  rw [State.getElem_ringRow, hread, List.getElem_drop, List.getElem_append]
  by_cases hlast : m + 1 = s.build.cap
  · rw [if_pos (hslot.2 hlast), dif_neg (by simp; omega)]
    simp
  · rw [if_neg (mt hslot.1 hlast), dif_pos (by simp; omega), State.getElem_ringRow]
    congr 1
    omega

/-! ## BLOCK shifts its samples into the history -/

theorem State.samples_succ (s : State) (ch n : Nat) :
    s.samples ch (n + 1) = s.samples ch n ++ [s.read .io ch n] := by
  simp [State.samples, List.range_succ]

@[simp] theorem State.length_samples (s : State) (ch n : Nat) : (s.samples ch n).length = n := by
  simp [State.samples]

/-- One more ingested sample, as RingRead sees it (43_block_scheduler.md R162). -/
theorem State.ringRead_ingest_succ (s : State) (n : Nat) {ch : Nat} (hch : ch < s.build.nch) (q : Nat) :
    (s.ingest (n + 1)).ringRead ch q =
      if q % s.build.cap = (s.wp.toNat + n) % s.build.cap then s.read .io ch n
      else (s.ingest n).ringRead ch q := by
  have hpeek := s.peek_ingest_succ n .ring ch (mask_lt_65536 s.build q)
  simp only [hch, mask_eq_mod, true_and] at hpeek
  have hbuild (k : Nat) : (s.ingest k).build = s.build := by rw [State.ingest_ring]
  have hepoch (k : Nat) : (s.ingest k).epoch = s.epoch := by rw [State.ingest_ring]
  simp only [State.ringRead, State.read, hbuild, hepoch, mask_eq_mod, hpeek]
  split <;> rfl

/-- Ingesting `n` samples: the row from WP + n on is the last C words of the row from WP on followed by
the samples. -/
theorem State.ringRow_ingest (s : State) (n : Nat) {ch : Nat} (hch : ch < s.build.nch) :
    (s.ingest n).ringRow ch (s.wp.toNat + n) = (s.ringRow ch s.wp.toNat ++ s.samples ch n).drop n := by
  induction n with
  | zero => simp [State.samples, State.ingest_zero]
  | succ n ih =>
    have hbuild (k : Nat) : (s.ingest k).build = s.build := by rw [State.ingest_ring]
    have hshift : (s.ingest (n + 1)).ringRow ch (s.wp.toNat + n + 1) =
        ((s.ingest n).ringRow ch (s.wp.toNat + n) ++ [s.read .io ch n]).drop 1 :=
      State.ringRow_shift ((hbuild _).trans (hbuild n).symm) fun q => by
        rw [hbuild, s.ringRead_ingest_succ n hch]
    rw [← Nat.add_assoc, hshift, ih, State.samples_succ, ← List.append_assoc,
      ← List.drop_append_of_le_length (by simp), List.drop_drop]

/-- A BLOCK that runs leaves as history the last C words of the old history followed by the samples,
also when there are more than C samples (43_block_scheduler.md R162, R163, R170). -/
theorem State.history_block (s : State) (n : Nat) {ch : Nat} (hch : ch < s.build.nch) :
    (((s.ingest n).advance n).finishBlock).history ch =
      (s.history ch ++ s.samples ch n).drop n := by
  have hfinish (t : State) : t.finishBlock.history ch = t.history ch := by
    rcases t.finishBlock_cases with ⟨-, h⟩ | ⟨-, h⟩ <;> rw [h] <;> rfl
  have hwp : (s.ingest n).wp = s.wp := by rw [State.ingest_ring]
  calc (((s.ingest n).advance n).finishBlock).history ch
      = ((s.ingest n).advance n).history ch := hfinish _
    _ = (s.ingest n).ringRow ch ((s.ingest n).advance n).wp.toNat := rfl
    _ = (s.ingest n).ringRow ch (s.wp.toNat + n) := by
      rw [State.advance_wp_toNat, State.ringRow_mod, hwp]
    _ = (s.history ch ++ s.samples ch n).drop n := s.ringRow_ingest n hch

/-! ## What is let through and what is quiet -/

theorem exec_setup_of_accepts {s : State} {nch : Nat} {maxblk : Half}
    (h : acceptsSetup s nch maxblk = true) :
    exec (.setup nch maxblk) s = .next (s.acceptSetup maxblk) := by
  simp only [acceptsSetup, Bool.and_eq_true, Bool.not_eq_true'] at h
  obtain ⟨⟨hallowed, hchan⟩, hblkmax⟩ := h
  simp [exec, execSetup, State.issue, State.runSetup, hallowed, hchan, hblkmax]

theorem exec_block_of_accepts {s : State} {n : Half} (h : acceptsBlock s n = true) :
    exec (.block n) s = .next ((s.ingest n.toNat).advance n.toNat).finishBlock := by
  simp only [acceptsBlock, Bool.and_eq_true, decide_eq_true_eq] at h
  obtain ⟨hallowed, hn⟩ := h
  simp [exec, execBlock, State.issue, State.runBlock, hallowed, Nat.not_lt.2 hn]

/-- The build, the ring and WP are as they were: all that a history looks at, but for the draws. -/
structure KeepsRing (s t : State) : Prop where
  build : t.build = s.build
  ring : t.ring = s.ring
  wp : t.wp = s.wp

namespace KeepsRing

variable {s t : State}

theorem raise (s : State) (e : Err) : KeepsRing s (s.raise e) := ⟨rfl, rfl, rfl⟩

theorem take (s : State) (rest : List Event) : KeepsRing s (s.take rest) := ⟨rfl, rfl, rfl⟩

/-- Only SETUP, BLOCK and RING_WRITE write the ring or WP (`WrittenOnlyBy`). -/
theorem of_writtenOnlyBy {op : Option Op} (h : WrittenOnlyBy op s t) (hsetup : op ≠ some .setup)
    (hblock : op ≠ some .block) (hwrite : op ≠ some .ringWrite) : KeepsRing s t := by
  refine ⟨h.build, by_contra fun hne => ?_, by_contra fun hne => ?_⟩
  · rcases h.ring hne with hop | hop | hop
    · exact hblock hop
    · exact hwrite hop
    · exact hsetup hop
  · rcases h.blockState fun hall => hne hall.1 with hop | hop
    · exact hblock hop
    · exact hsetup hop

/-- A SETUP that is refused or rejected touches neither ring nor WP (44_host_commands.md R192, R194). -/
theorem setup {nch : Nat} {maxblk : Half} (h : acceptsSetup s nch maxblk = false)
    (hexec : exec (.setup nch maxblk) s = .next t) : KeepsRing s t := by
  obtain rfl : s.issue .setup (fun t => t.runSetup nch maxblk) = t := Host.Outcome.next.inj hexec
  rcases s.issue_cases .setup (fun t => t.runSetup nch maxblk) with ⟨ha, he⟩ | ⟨-, he⟩ <;> rw [he]
  · have hbad : (badChan s.build nch || badBlkmax s.build maxblk) = true := by
      simpa [acceptsSetup, ha, imp_iff_not_or] using h
    simp only [State.runSetup, hbad, if_true]
    exact ⟨s.rejectSetup_build _ _, s.rejectSetup_ring _ _, s.rejectSetup_wp _ _⟩
  · exact raise s _

/-- A BLOCK that is refused or too long only raises an error (43_block_scheduler.md R161). -/
theorem block {n : Half} (h : acceptsBlock s n = false) (hexec : exec (.block n) s = .next t) :
    KeepsRing s t := by
  obtain rfl : s.issue .block (fun t => t.runBlock n) = t := Host.Outcome.next.inj hexec
  rcases s.issue_cases .block (fun t => t.runBlock n) with ⟨ha, he⟩ | ⟨-, he⟩ <;> rw [he]
  · rcases s.runBlock_cases n with ⟨-, hrun⟩ | ⟨hn, -⟩
    · rw [hrun]
      exact raise s _
    · simp [acceptsBlock, ha, hn] at h
  · exact raise s _

/-- A RING_WRITE that is refused only raises an error (60_exceptions.md R234). -/
theorem ringWrite {ch : Nat} {pos : Half}
    (h : ¬ (allowed .ringWrite s.life = true ∧ ch < s.build.nch))
    (hexec : exec (.ringWrite ch pos) s = .next t) : KeepsRing s t := by
  obtain ⟨e, he⟩ := State.issueRing_of_refused h fun t => t.ringWrite ch t.arg pos.toNat
  obtain rfl : s.raise e = t := he.symm.trans (Host.Outcome.next.inj hexec)
  exact raise s e

/-- A quiet instruction keeps the ring and WP. -/
theorem of_quiet {i : Instr} (hq : quiet s i = true) (h : exec i s = .next t) : KeepsRing s t := by
  have hwritten := WrittenOnlyBy.of_effect (effect_of_exec h)
  cases i with
  | nop => exact of_writtenOnlyBy hwritten nofun nofun nofun
  | setup nch maxblk => exact setup (by simpa [quiet] using hq) h
  | block n => exact block (by simpa [quiet] using hq) h
  | teardown => exact of_writtenOnlyBy hwritten nofun nofun nofun
  | ringWrite ch pos => exact ringWrite (by simpa [quiet, imp_iff_not_or] using hq) h
  | ringRead ch pos => exact of_writtenOnlyBy hwritten nofun nofun nofun
  | clrerr => exact of_writtenOnlyBy hwritten nofun nofun nofun
  | busRd addr => exact of_writtenOnlyBy hwritten nofun nofun nofun
  | busWr addr v =>
    have hnone : commandOp s.build (.busWr addr v) = none := by
      have haddr : addr ≠ cmdAddr := by simpa [quiet] using hq
      simp [commandOp, decodeAddr_eq_cmd_iff, haddr]
    rw [hnone] at hwritten
    exact of_writtenOnlyBy hwritten nofun nofun nofun

/-- Where every ring word holds a value, no draw is read, and the history is kept too. -/
theorem history (h : KeepsRing s t) {v : Word} (hfill : s.ring.fill = some v) (ch : Nat) :
    t.history ch = s.history ch := by
  have hread (k : Nat) : t.read .ring ch k = s.read .ring ch k := by
    obtain ⟨w, hw⟩ := Option.ne_none_iff_exists'.1 (Memory.get_ne_none hfill (cellKey ch k))
    have hs : s.peek .ring ch k = some w := hw
    have ht : t.peek .ring ch k = some w := (State.peek_congr (a := .ring) h.ring ch k).trans hs
    rw [State.read_of_peek hs, State.read_of_peek ht]
  simp only [State.history, State.ringRead, h.build, h.wp, hread]

end KeepsRing

/-! ## The stream since SETUP (R117) -/

/-- The history of every channel is the last C words of C zeros, which SETUP left, followed by what the
channel has ingested since; and no ring word is unspecified. -/
structure HoldsStream (s : State) (stream : Nat → List Word) : Prop where
  fill : s.ring.fill = some 0
  history : ∀ ch, ch < s.build.nch →
    s.history ch = (List.replicate s.build.cap 0 ++ stream ch).drop (stream ch).length

namespace HoldsStream

variable {s t : State} {stream : Nat → List Word}

/-- SETUP starts an empty stream on a ring of zeros (44_host_commands.md R193). -/
theorem acceptSetup (s : State) (maxblk : Half) : HoldsStream (s.acceptSetup maxblk) fun _ => [] where
  fill := rfl
  history ch _ := by
    have hread (p : Nat) : (s.acceptSetup maxblk).ringRead ch p = 0 := State.read_of_peek rfl
    simp [State.history, hread]

theorem congr (h : HoldsStream s stream) (hk : KeepsRing s t) : HoldsStream t stream where
  fill := by rw [hk.ring, h.fill]
  history ch hch := by
    rw [hk.build] at hch ⊢
    rw [hk.history h.fill, h.history ch hch]

/-- A BLOCK appends its samples to the stream and shifts them into the history. -/
theorem block (h : HoldsStream s stream) (n : Nat) :
    HoldsStream ((s.ingest n).advance n).finishBlock fun ch => stream ch ++ s.samples ch n where
  fill := (s.fill_block n .ring).trans h.fill
  history ch hch := by
    obtain ⟨u, hu⟩ := s.block_frame n
    have hbuild : ((s.ingest n).advance n).finishBlock.build = s.build := by rw [hu]
    rw [hbuild] at hch ⊢
    rw [s.history_block n hch, h.history ch hch, ← List.drop_append_of_le_length (by simp),
      List.drop_drop, List.append_assoc, List.length_append, State.length_samples]

/-- Induction on the run since SETUP. -/
theorem of_streamed (h : Streamed s stream) : HoldsStream s stream := by
  induction h with
  | setup haccepts hexec =>
    rw [exec_setup_of_accepts haccepts] at hexec
    cases hexec
    exact acceptSetup _ _
  | block _ haccepts hexec ih =>
    rw [exec_block_of_accepts haccepts] at hexec
    cases hexec
    exact ih.block _
  | quiet _ hquiet hexec ih => exact ih.congr (KeepsRing.of_quiet hquiet hexec)
  | take rest _ ih => exact ih.congr (KeepsRing.take _ rest)

end HoldsStream

/-- Settles O34: the history is the end of the zeros and the stream (`HoldsStream`), so once the stream
has reached C samples it is the end of the stream. -/
theorem ringHoldsLastSamples : Obligations.RingHoldsLastSamples := by
  intro s stream ch hstreamed hch hlong m hm
  have hhistory : s.history ch = (stream ch).drop ((stream ch).length - s.build.cap) := by
    rw [(HoldsStream.of_streamed hstreamed).history ch hch, List.drop_append,
      List.drop_eq_nil_of_le (by simpa using hlong.le), List.length_replicate, List.nil_append]
  rw [← List.getElem?_drop, ← hhistory]
  simp [State.history, hm]

end Sys2Proof.Machine
end

section
/-!
The frames of a firing BLOCK (41_frame_assembler.md, 42_transform.md): where the frame guard lets a BLOCK
fire, the words FRAME_READY then leaves in lin, spec and cpx, the round trip of such a frame, and the
frame as the end of the stream.
-/

namespace Sys2Proof.Machine

open Sys2Proof

/-! ## When a BLOCK fires -/

theorem acceptsBlock_iff (s : State) (n : Half) :
    acceptsBlock s n = true ↔ s.life = .streaming ∧ n.toNat ≤ s.maxblk.toNat := by
  simp [acceptsBlock, allowed_block_iff]

theorem State.finishBlock_fired (s : State) : s.finishBlock.fired = s.fires := by
  rcases s.finishBlock_cases with ⟨hf, he⟩ | ⟨hf, he⟩ <;> rw [he, hf]

/-- The frame guard by the counters before the block: what R163 saturates at lies above what the guard
compares with (43_block_scheduler.md R164). -/
theorem State.fires_advance_iff (s : State) (n : Nat) :
    (s.advance n).fires = true ↔
      s.build.hop ≤ s.hopcnt.toNat + n ∧ s.build.cap < s.hist.toNat + n := by
  have hhop := hop_lt_65536 s.build
  rw [State.fires_iff, State.advance_hopcnt_toNat, State.advance_hist_toNat, State.advance_build]
  omega

theorem State.fires_block_iff (s : State) (n : Nat) :
    ((s.ingest n).advance n).fires = true ↔
      s.build.hop ≤ s.hopcnt.toNat + n ∧ s.build.cap < s.hist.toNat + n := by
  rw [State.ingest_ring]
  exact State.fires_advance_iff _ n

/-! ## What a firing block leaves in the storage -/

/-- The frame a channel's ring holds: word `m` is the sample `m` positions after WP (R130). -/
def State.frame (s : State) (ch m : Nat) : Word := s.ringRead ch (s.wp.toNat + m)

/-- What follows ingestion leaves the ring and WP alone (R133). -/
theorem State.frame_finishBlock (s : State) (ch : Nat) : s.finishBlock.frame ch = s.frame ch := by
  rcases s.finishBlock_cases with ⟨-, he⟩ | ⟨-, he⟩ <;> rw [he] <;> rfl

/-- A firing block gives each channel what FrameAssemble and Transform make of its own row, and touches
no row of a channel that does not exist (43_block_scheduler.md R165). -/
theorem State.peek_finishBlock {s : State} (hf : s.fires = true) (a : Arr) (ch : Nat) {k : Nat}
    (hk : k < 65536) :
    s.finishBlock.peek a ch k =
      if ch < s.build.nch then (s.frameChannel ch).peek a ch k else s.peek a ch k := by
  have harr : s.finishBlock.arr a = s.frameReady.arr a := by rw [State.finishBlock_arr, if_pos hf]
  rw [State.peek_congr harr, State.frameReady_eq, State.peek_frameChannels _ _ _ _ hk]

section Firing

variable {s : State} {ch k : Nat}

/-- LIN takes the frame (R130). -/
theorem State.peek_lin_finishBlock (hf : s.fires = true) (hch : ch < s.build.nch)
    (hk : k < s.build.cap) : s.finishBlock.peek .lin ch k = some (s.finishBlock.frame ch k) := by
  have hlt : k < 65536 := by have := cap_le s.build; omega
  rw [State.peek_finishBlock hf _ _ hlt, if_pos hch, State.peek_frameChannel _ _ _ _ hlt, if_pos rfl,
    if_pos ⟨rfl, hk⟩, State.frame_finishBlock]
  rfl

/-- SPEC takes the edited spectrum of the frame (42_transform.md R148). -/
theorem State.peek_spec_finishBlock (hf : s.fires = true) (hch : ch < s.build.nch)
    (hk : k < 2 * s.build.cap) :
    s.finishBlock.peek .spec ch k = some (frameSpecWord s.build ch (s.finishBlock.frame ch) k) := by
  have hlt : k < 65536 := by have := cap_le s.build; omega
  rw [State.peek_finishBlock hf _ _ hlt, if_pos hch, State.peek_frameChannel _ _ _ _ hlt, if_pos rfl,
    if_neg nofun, if_pos ⟨rfl, hk⟩, State.frame_finishBlock]
  rfl

/-- CPX takes the inverse transform of the edited spectrum (42_transform.md R148). -/
theorem State.peek_cpx_finishBlock (hf : s.fires = true) (hch : ch < s.build.nch)
    (hk : k < 2 * s.build.cap) :
    s.finishBlock.peek .cpx ch k = some (frameCpxWord s.build ch (s.finishBlock.frame ch) k) := by
  have hlt : k < 65536 := by have := cap_le s.build; omega
  rw [State.peek_finishBlock hf _ _ hlt, if_pos hch, State.peek_frameChannel _ _ _ _ hlt, if_pos rfl,
    if_neg nofun, if_neg nofun, if_pos ⟨rfl, hk⟩, State.frame_finishBlock]
  rfl

/-- A firing block leaves alone the rows of no channel, io, and the words beyond a row's depth
(R133, 43_block_scheduler.md R168). -/
theorem State.peek_finishBlock_of_outside (hf : s.fires = true) {a : Arr} (hk : k < 65536)
    (hout : s.build.nch ≤ ch ∨ a = .io ∨ a = .lin ∧ s.build.cap ≤ k ∨ 2 * s.build.cap ≤ k) :
    s.finishBlock.peek a ch k = s.peek a ch k := by
  rw [State.peek_finishBlock hf _ _ hk]
  split
  case isFalse => rfl
  case isTrue hch =>
    rw [State.peek_frameChannel _ _ _ _ hk, if_pos rfl]
    rcases hout.resolve_left (not_le.2 hch) with rfl | ⟨rfl, hdepth⟩ | hdepth
    · simp
    · simp [not_lt.2 hdepth]
    · have hlin : ¬ k < s.build.cap := by omega
      simp [hlin, not_lt.2 hdepth]

end Firing

/-- Before the frame guard a BLOCK writes no array but the ring (43_block_scheduler.md R162). -/
theorem State.peek_ingest_advance (s : State) (n : Nat) {a : Arr} (ha : a ≠ .ring) (ch k : Nat) :
    ((s.ingest n).advance n).peek a ch k = s.peek a ch k := by
  refine State.peek_congr ?_ ch k
  rw [State.ingest_ring]
  cases a with
  | ring => exact absurd rfl ha
  | io | lin | cpx | spec => rfl

/-- Settles O28: the block is let through and fires (`State.fires_block_iff`); `u` is the state that the
frame guard sees. -/
theorem firingBlockBuildsFrames : Obligations.FiringBlockBuildsFrames := by
  intro s n hlife hn hhop hhist
  obtain ⟨u, hu⟩ : ∃ u, (s.ingest n.toNat).advance n.toNat = u := ⟨_, rfl⟩
  have hexec := exec_block_of_accepts ((acceptsBlock_iff s n).2 ⟨hlife, hn⟩)
  have hfires := (s.fires_block_iff n.toNat).2 ⟨hhop, hhist⟩
  have hbuild : u.build = s.build := by rw [← hu, State.ingest_ring]; rfl
  rw [hu] at hexec hfires
  refine ⟨u.finishBlock, hexec, u.finishBlock_fired.trans hfires, ?_, fun a ch k ha hk hout => ?_⟩
  · rw [← hbuild]
    exact fun ch hch => ⟨fun m hm => State.peek_lin_finishBlock hfires hch hm, fun j hj =>
      ⟨State.peek_spec_finishBlock hfires hch hj, State.peek_cpx_finishBlock hfires hch hj⟩⟩
  · rw [← hbuild] at hout
    rw [State.peek_finishBlock_of_outside hfires hk hout, ← hu, State.peek_ingest_advance s _ ha]

/-! ## The round trip (42_transform.md R144, R145) -/

theorem epsRt_512 : Config.epsRt 9 = 1 / 10000 :=
  (@Config.transformPair 9 ⟨doNothingPair 9⟩).epsRt_512 rfl

/-- RT(EPS_RT) of the build's transforms, which the type of the pair assumes (log 5). -/
theorem roundTrip_fwd_inv (k : Nat) : RoundTrip k (Config.epsRt k) (Config.fwd k) (Config.inv k) :=
  (@Config.transformPair k ⟨doNothingPair k⟩).roundTrip

theorem edit_of_identity {b : Build} (h : b.edit = .identity) (ch : Nat) (v : Spectrum b.log2c) :
    edit b ch v = v := by
  simp [edit, h]

/-- Settles O29: LIN and CPX are read off `firingBlockBuildsFrames`, and without an edit CPX is
INV(FWD(frame)), which RT(EPS_RT) is about. -/
theorem firingBlockRoundTrips : Obligations.FiringBlockRoundTrips := by
  refine ⟨epsRt_512, fun s n hlife hn hhop hhist hedit => ?_⟩
  obtain ⟨t, hexec, -, hframes, -⟩ := firingBlockBuildsFrames s n hlife hn hhop hhist
  refine ⟨t, hexec, fun ch hch hrange m hm => ?_⟩
  obtain ⟨hlin, hwords⟩ := hframes ch hch
  have hread (i : Nat) (hi : i < s.build.cap) : t.read .lin ch i = t.frame ch i :=
    State.read_of_peek (hlin i hi)
  have hcpx (j : Nat) (hj : j < 2 * s.build.cap) : t.read .cpx ch j =
      spectrumWord (Config.inv s.build.log2c (Config.fwd s.build.log2c
        (interleave s.build.log2c (t.frame ch)))) j := by
    rw [State.read_of_peek (hwords j hj).2, edit_of_identity hedit]
    rfl
  rw [hread m hm, hcpx (2 * m) (by omega), hcpx (2 * m + 1) (by omega)]
  exact roundTrip_fwd_inv s.build.log2c (t.frame ch) (fun i hi => hread i hi ▸ hrange i hi) m hm

/-! ## HIST counts the samples since SETUP (43_block_scheduler.md R163) -/

/-- A SETUP that is not let through raises an error or is rejected (44_host_commands.md R192, R194). -/
theorem exec_setup_of_not_accepts {s : State} {nch : Nat} {maxblk : Half}
    (h : acceptsSetup s nch maxblk = false) :
    (∃ e, exec (.setup nch maxblk) s = .next (s.raise e)) ∨
      ∃ chan blkmax, exec (.setup nch maxblk) s = .next (s.rejectSetup chan blkmax) := by
  rcases s.issue_cases .setup (fun t => t.runSetup nch maxblk) with ⟨ha, he⟩ | ⟨-, he⟩
  · have hbad : (badChan s.build nch || badBlkmax s.build maxblk) = true := by
      simpa [acceptsSetup, ha, imp_iff_not_or] using h
    exact .inr ⟨_, _, congrArg _ (he.trans (if_pos hbad))⟩
  · exact .inl ⟨_, congrArg _ he⟩

/-- A BLOCK that is not let through only raises an error (43_block_scheduler.md R161). -/
theorem exec_block_of_not_accepts {s : State} {n : Half} (h : acceptsBlock s n = false) :
    ∃ e, exec (.block n) s = .next (s.raise e) := by
  rcases s.issue_cases .block (fun t => t.runBlock n) with ⟨ha, he⟩ | ⟨-, he⟩
  · rcases s.runBlock_cases n with ⟨-, hrun⟩ | ⟨hn, -⟩
    · exact ⟨_, congrArg _ (he.trans hrun)⟩
    · simp [acceptsBlock, ha, hn] at h
  · exact ⟨_, congrArg _ he⟩

/-- Only BLOCK and SETUP write HIST (10_state.md R40). -/
theorem WrittenOnlyBy.hist_eq {op : Option Op} {s t : State} (h : WrittenOnlyBy op s t)
    (hblock : op ≠ some .block) (hsetup : op ≠ some .setup) : t.hist = s.hist := by
  by_contra hne
  rcases h.blockState fun ⟨_, _, hhist, _⟩ => hne hhist with hop | hop
  · exact hblock hop
  · exact hsetup hop

/-- A quiet instruction keeps HIST. -/
theorem hist_of_quiet {s t : State} {i : Instr} (hq : quiet s i = true) (h : exec i s = .next t) :
    t.hist = s.hist := by
  have hwritten := WrittenOnlyBy.of_effect (effect_of_exec h)
  cases i with
  | setup nch maxblk =>
    rcases exec_setup_of_not_accepts (by simpa [quiet] using hq) with ⟨e, he⟩ | ⟨c, d, he⟩
    · cases he.symm.trans h
      rfl
    · cases he.symm.trans h
      exact s.rejectSetup_hist c d
  | block n =>
    obtain ⟨e, he⟩ := exec_block_of_not_accepts (by simpa [quiet] using hq)
    cases he.symm.trans h
    rfl
  | busWr addr v =>
    have haddr : addr ≠ cmdAddr := by simpa [quiet] using hq
    have hnone : commandOp s.build (.busWr addr v) = none := by
      simp [commandOp, decodeAddr_eq_cmd_iff, haddr]
    rw [hnone] at hwritten
    exact hwritten.hist_eq nofun nofun
  | nop | teardown | ringWrite | ringRead | clrerr | busRd => exact hwritten.hist_eq nofun nofun

/-- A BLOCK that runs adds its length to HIST, saturating at C + 1. -/
theorem State.hist_block (s : State) (n : Nat) :
    (((s.ingest n).advance n).finishBlock).hist.toNat = min (s.hist.toNat + n) (s.build.cap + 1) := by
  have hfinish (t : State) : t.finishBlock.hist = t.hist := by
    rcases t.finishBlock_cases with ⟨-, he⟩ | ⟨-, he⟩ <;> rw [he]
  rw [hfinish, State.advance_hist_toNat, State.ingest_ring]

/-- HIST is the number of samples since SETUP, saturated at C + 1 (43_block_scheduler.md R172). -/
theorem hist_of_ingested {s : State} {k : Nat} (h : Ingested s k) :
    s.hist.toNat = min k (s.build.cap + 1) := by
  induction h with
  | setup haccepts hexec =>
    rw [exec_setup_of_accepts haccepts] at hexec
    cases hexec
    exact (Nat.zero_min _).symm
  | block _ haccepts hexec ih =>
    rw [exec_block_of_accepts haccepts] at hexec
    cases hexec
    rw [State.hist_block, (WrittenOnlyBy.block _ _).build]
    omega
  | quiet _ hquiet hexec ih =>
    rw [hist_of_quiet hquiet hexec, (WrittenOnlyBy.of_effect (effect_of_exec hexec)).build, ih]
  | ringWrite _ hexec ih =>
    have hwritten := WrittenOnlyBy.of_effect (effect_of_exec hexec)
    rw [hwritten.hist_eq nofun nofun, hwritten.build, ih]
  | take rest _ ih => exact ih

/-! ## The frame is the end of the stream (R134, R135) -/

/-- A run without a RING_WRITE counts as any other: the stream of each channel is as long as the count. -/
theorem ingested_of_streamed {s : State} {stream : Nat → List Word} (h : Streamed s stream) (ch : Nat) :
    Ingested s (stream ch).length := by
  induction h with
  | setup haccepts hexec => exact .setup haccepts hexec
  | block _ haccepts hexec ih =>
    rw [List.length_append, State.length_samples]
    exact .block ih haccepts hexec
  | quiet _ hquiet hexec ih => exact .quiet ih hquiet hexec
  | take rest _ ih => exact .take rest ih

/-- Settles O35: a block that fires meets the guard of O28, whose frame is read from the ring, where O34
finds the end of the stream. -/
theorem firedFrameIsLastSamples : Obligations.FiredFrameIsLastSamples := by
  intro s stream n t ch hstreamed haccepts hexec hfired hch
  obtain ⟨hlife, hn⟩ := (acceptsBlock_iff s n).1 haccepts
  have hbuild : t.build = s.build := (WrittenOnlyBy.of_effect (effect_of_exec hexec)).build
  have ht := Host.Outcome.next.inj ((exec_block_of_accepts haccepts).symm.trans hexec)
  have hfires : ((s.ingest n.toNat).advance n.toNat).fires = true := by
    rw [← State.finishBlock_fired, ht, hfired]
  obtain ⟨hhop, hhist⟩ := (s.fires_block_iff n.toNat).1 hfires
  have hlong : s.build.cap < (stream ch ++ s.samples ch n.toNat).length := by
    have := hist_of_ingested (ingested_of_streamed hstreamed ch)
    rw [List.length_append, State.length_samples]
    omega
  obtain ⟨t', hexec', -, hframes, -⟩ := firingBlockBuildsFrames s n hlife hn hhop hhist
  cases hexec'.symm.trans hexec
  refine ⟨hlong, fun m hm => ?_⟩
  have hring := ringHoldsLastSamples t _ ch (.block hstreamed haccepts hexec)
  rw [hbuild] at hring
  rw [hring hch hlong m hm]
  exact (hframes ch hch).1 m hm

end Sys2Proof.Machine
end

section
/-!
BLOCK and the block scheduler (43_block_scheduler.md): what a BLOCK that runs does to the counters and to
the ring, the frame guard before and after priming, the hop cadence, and the cold start. The counters are
read off one case split at the frame guard, `State.runBlock_guard_cases`.
-/

namespace Sys2Proof.Machine

open Sys2Proof

/-! ## The range of HOP (00_scope.md R8) -/

theorem hop_pos (b : Build) : 0 < b.hop := by
  obtain ⟨-, -, ⟨hpos, -⟩, -⟩ := b.legal
  exact hpos

theorem hop_le_cap (b : Build) : b.hop ≤ b.cap := by
  obtain ⟨-, -, ⟨-, hle⟩, -⟩ := b.legal
  exact hle

/-! ## The length check (R160, R161) -/

/-- In STREAMING the LIFE check lets BLOCK through. -/
theorem exec_block_streaming {s : State} (hlife : s.life = .streaming) (n : Half) :
    exec (.block n) s = .next (s.runBlock n) := by
  have hallowed := (allowed_block_iff s.life).2 hlife
  simp [exec, execBlock, State.issue, hallowed]

theorem State.runBlock_of_gt {s : State} {n : Half} (h : s.maxblk.toNat < n.toNat) :
    s.runBlock n = s.raise .blklen := if_pos h

theorem State.runBlock_of_le {s : State} {n : Half} (h : n.toNat ≤ s.maxblk.toNat) :
    s.runBlock n = ((s.ingest n.toNat).advance n.toNat).finishBlock := if_neg (not_lt.2 h)

/-- Settles O24: the length check raises ERR_BLKLEN, which is STATUS bit 10. -/
theorem blockTooLongSetsErrBlklen : Obligations.BlockTooLongSetsErrBlklen := by
  intro s n hlife hlong
  rw [exec_block_streaming hlife, State.runBlock_of_gt hlong]
  rfl

/-! ## A BLOCK that runs -/

theorem State.finishBlock_wp (s : State) : s.finishBlock.wp = s.wp := by
  rcases s.finishBlock_cases with ⟨-, he⟩ | ⟨-, he⟩ <;> rw [he]

theorem State.finishBlock_ring (s : State) : s.finishBlock.ring = s.ring := by
  rcases s.finishBlock_cases with ⟨-, he⟩ | ⟨-, he⟩ <;> rw [he]

section Running

variable {s : State} {n : Half}

/-- What a BLOCK that runs may change (R168). -/
theorem State.runBlock_frame (h : n.toNat ≤ s.maxblk.toNat) :
    s.runBlock n =
      { s with
        wp := (s.runBlock n).wp, hopcnt := (s.runBlock n).hopcnt, hist := (s.runBlock n).hist
        framecnt := (s.runBlock n).framecnt, fired := (s.runBlock n).fired
        ring := (s.runBlock n).ring, lin := (s.runBlock n).lin, cpx := (s.runBlock n).cpx
        spec := (s.runBlock n).spec } := by
  obtain ⟨u, hu⟩ := s.block_frame n.toNat
  rw [State.runBlock_of_le h, hu]

theorem State.runBlock_wp_toNat (h : n.toNat ≤ s.maxblk.toNat) :
    (s.runBlock n).wp.toNat = (s.wp.toNat + n.toNat) % s.build.cap := by
  rw [State.runBlock_of_le h, State.finishBlock_wp, State.advance_wp_toNat, State.ingest_ring]

theorem State.runBlock_hist_toNat (h : n.toNat ≤ s.maxblk.toNat) :
    (s.runBlock n).hist.toNat = min (s.hist.toNat + n.toNat) (s.build.cap + 1) := by
  rw [State.runBlock_of_le h, State.hist_block]

/-- The frame guard by the counters before the block: either it holds, and the block fires, clears HOPCNT
and counts the frame, or the block stays in ACCUMULATING and leaves the frame buffers (R164 to R167). -/
theorem State.runBlock_guard_cases (h : n.toNat ≤ s.maxblk.toNat) :
    ((s.build.hop ≤ s.hopcnt.toNat + n.toNat ∧ s.build.cap < s.hist.toNat + n.toNat) ∧
      (s.runBlock n).fired = true ∧ (s.runBlock n).hopcnt = 0 ∧
      (s.runBlock n).framecnt = s.framecnt + 1) ∨
    (¬ (s.build.hop ≤ s.hopcnt.toNat + n.toNat ∧ s.build.cap < s.hist.toNat + n.toNat) ∧
      (s.runBlock n).fired = false ∧
      (s.runBlock n).hopcnt.toNat = min (s.hopcnt.toNat + n.toNat) 0xFFFFFFFF ∧
      (s.runBlock n).framecnt = s.framecnt ∧ (s.runBlock n).lin = s.lin ∧
      (s.runBlock n).cpx = s.cpx ∧ (s.runBlock n).spec = s.spec) := by
  rw [State.runBlock_of_le h, ← State.fires_block_iff]
  rcases ((s.ingest n.toNat).advance n.toNat).finishBlock_cases with ⟨hf, he⟩ | ⟨hf, he⟩ <;> rw [he]
  · refine .inl ⟨hf, rfl, rfl, ?_⟩
    rw [State.ingest_ring]
    rfl
  · refine .inr ⟨by simp [hf], rfl, ?_⟩
    rw [State.ingest_ring]
    exact ⟨State.advance_hopcnt_toNat _ _, rfl, rfl, rfl, rfl⟩

theorem State.runBlock_fired_iff (h : n.toNat ≤ s.maxblk.toNat) :
    (s.runBlock n).fired = true ↔
      s.build.hop ≤ s.hopcnt.toNat + n.toNat ∧ s.build.cap < s.hist.toNat + n.toNat := by
  rcases State.runBlock_guard_cases h with ⟨hguard, hfired, -⟩ | ⟨hguard, hfired, -⟩ <;>
    simp [hguard, hfired]

end Running

/-- Settles O25: the guard on the updated counters is the guard on the plain sums, what R163 saturates at
lying above what the guard compares with. -/
theorem blockCountersAndGuard : Obligations.BlockCountersAndGuard := by
  intro s n hlife hn
  refine ⟨_, exec_block_streaming hlife n, State.runBlock_frame hn, State.runBlock_wp_toNat hn,
    State.runBlock_hist_toNat hn, ?_⟩
  have hhop := hop_lt_65536 s.build
  rcases State.runBlock_guard_cases hn with ⟨hguard, hfired, hhopcnt, hframecnt⟩ | ⟨hguard, hquiet⟩
  · rw [if_pos (by omega)]
    exact ⟨hfired, hhopcnt, by rw [hframecnt, BitVec.toNat_add]; rfl⟩
  · rw [if_neg (by omega)]
    exact hquiet

/-- Settles O31: one block counts at most one frame, by `State.runBlock_guard_cases`. -/
theorem blockFiresAtMostOnce : Obligations.BlockFiresAtMostOnce := by
  intro s n hlife hn
  refine ⟨_, exec_block_streaming hlife n, ?_, fun hprimed hhop => ?_⟩
  · rcases State.runBlock_guard_cases hn with ⟨-, hfired, hhopcnt, hframecnt⟩ |
      ⟨-, hfired, -, hframecnt, -⟩
    · exact .inl ⟨hfired, hframecnt, hhopcnt⟩
    · exact .inr ⟨hfired, hframecnt⟩
  · exact (State.runBlock_fired_iff hn).2 ⟨by omega, by omega⟩

/-! ## Where the samples land (R162, R170) -/

/-- A sample is still in its slot after `n` samples if no later one came round to it. -/
theorem State.peek_ingest_of_lt (s : State) {ch i n : Nat} (hch : ch < s.build.nch) (hi : i < n)
    (hlast : n ≤ i + s.build.cap) :
    (s.ingest n).peek .ring ch (mask s.build (s.wp.toNat + i)) = some (s.read .io ch i) := by
  induction n with
  | zero => omega
  | succ n ih =>
    rw [State.peek_ingest_succ _ _ _ _ (mask_lt_65536 _ _)]
    rcases Nat.lt_succ_iff_lt_or_eq.1 hi with hlt | rfl
    · have hslot : mask s.build (s.wp.toNat + i) ≠ mask s.build (s.wp.toNat + n) := by
        intro heq
        rw [mask_eq_mod, mask_eq_mod] at heq
        have hdvd := (Nat.modEq_iff_dvd' (by omega)).1 heq
        have := Nat.le_of_dvd (by omega) hdvd
        omega
      rw [if_neg fun h => hslot h.2.2, ih hlt (by omega)]
    · rw [if_pos ⟨rfl, hch, rfl⟩]

/-- Ingestion leaves alone the rows of no channel and the slots that no sample selects. -/
theorem State.peek_ingest_of_untouched (s : State) {ch k n : Nat} (hk : k < 65536)
    (h : s.build.nch ≤ ch ∨ ∀ i, i < n → mask s.build (s.wp.toNat + i) ≠ k) :
    (s.ingest n).peek .ring ch k = s.peek .ring ch k := by
  induction n with
  | zero => rw [State.ingest_zero]
  | succ n ih =>
    have hmiss : ¬ (Arr.ring = .ring ∧ ch < s.build.nch ∧ k = mask s.build (s.wp.toNat + n)) := by
      rintro ⟨-, hch, hslot⟩
      rcases h with hnone | hother
      · omega
      · exact hother n (Nat.lt_succ_self n) hslot.symm
    rw [State.peek_ingest_succ _ _ _ _ hk, if_neg hmiss]
    exact ih (h.imp_right fun hother i hi => hother i (Nat.lt_succ_of_lt hi))

/-- Settles O26: only ingestion writes the ring. -/
theorem blockIngestsSamples : Obligations.BlockIngestsSamples := by
  intro s n hlife hn
  have hring (ch k : Nat) :
      (s.runBlock n).peek .ring ch k = (s.ingest n.toNat).peek .ring ch k := by
    rw [State.runBlock_of_le hn]
    exact State.peek_congr (a := .ring) (State.finishBlock_ring _) ch k
  refine ⟨_, exec_block_streaming hlife n, fun ch i hch hi hlast => ?_, fun ch k hk hout => ?_⟩
  · rw [hring, s.peek_ingest_of_lt hch hi hlast]
  · rw [hring, s.peek_ingest_of_untouched hk hout]

/-- Settles O27 by `State.history_block`. -/
theorem blockShiftsHistory : Obligations.BlockShiftsHistory := by
  intro s n hlife hn
  refine ⟨_, exec_block_streaming hlife n, fun ch hch => ?_⟩
  rw [State.runBlock_of_le hn, s.history_block n.toNat hch]

/-! ## A block of no samples (R169) -/

/-- The counters of a state that meets the invariants are within what R163 cuts them to. -/
theorem Inv.advance_zero {s : State} (h : Inv s) : s.advance 0 = s := by
  have hwp : (s.advance 0).wp = s.wp := BitVec.eq_of_toNat_eq <| by
    rw [State.advance_wp_toNat, Nat.add_zero, Nat.mod_eq_of_lt h.wp_lt]
  have hhopcnt : (s.advance 0).hopcnt = s.hopcnt := BitVec.eq_of_toNat_eq <| by
    rw [State.advance_hopcnt_toNat]
    omega
  have hhist : (s.advance 0).hist = s.hist := BitVec.eq_of_toNat_eq <| by
    rw [State.advance_hist_toNat, Nat.add_zero, Nat.min_eq_left h.hist_le]
  calc s.advance 0
      = { s with
          wp := (s.advance 0).wp, hopcnt := (s.advance 0).hopcnt, hist := (s.advance 0).hist } := rfl
    _ = s := by rw [hwp, hhopcnt, hhist]

/-- Between blocks the frame guard does not hold: a primed state is short of the hop (10_state.md R53 d). -/
theorem Inv.fires_eq_false {s : State} (h : Inv s) (hlife : s.life = .streaming) : s.fires = false := by
  rw [Bool.eq_false_iff]
  intro hfires
  obtain ⟨hhop, hprimed⟩ := s.fires_iff.1 hfires
  exact absurd (h.primed hlife hprimed) (not_lt.2 hhop)

/-- Settles O30: nothing is ingested, the counters stay, and the guard does not hold. -/
theorem blockOfNoSamplesOnlyClearsFired : Obligations.BlockOfNoSamplesOnlyClearsFired := by
  intro s hinv hlife
  have hquiet : s.finishBlock = { s with fired := false } := by
    simp [State.finishBlock, hinv.fires_eq_false hlife]
  rw [exec_block_streaming hlife, State.runBlock_of_le (Nat.zero_le _)]
  exact congrArg _ ((congrArg State.finishBlock hinv.advance_zero).trans hquiet)

/-! ## After priming (R173, R174) -/

/-- A primed block fires if and only if the sum reaches HOP; HOPCNT takes the sum, unsaturated, or 0. -/
theorem State.runBlock_of_primed {s : State} {n : Half} (hprimed : s.build.cap < s.hist.toNat)
    (hn : n.toNat ≤ s.maxblk.toNat) :
    ((s.runBlock n).fired = true ↔ s.build.hop ≤ s.hopcnt.toNat + n.toNat) ∧
      (s.runBlock n).hopcnt.toNat =
        if s.build.hop ≤ s.hopcnt.toNat + n.toNat then 0 else s.hopcnt.toNat + n.toNat := by
  have hhop := hop_lt_65536 s.build
  refine ⟨(State.runBlock_fired_iff hn).trans (and_iff_left (by omega)), ?_⟩
  rcases State.runBlock_guard_cases hn with ⟨⟨hreached, -⟩, -, hhopcnt, -⟩ | ⟨hguard, -, hhopcnt, -⟩
  · rw [if_pos hreached, hhopcnt]
    rfl
  · rw [if_neg (by omega), hhopcnt]
    omega

/-- Settles O33: `State.runBlock_of_primed` of a BLOCK that the LIFE check lets through. -/
theorem primedBlockFiresOnHop : Obligations.PrimedBlockFiresOnHop := fun _ n _ hlife hprimed hn =>
  ⟨_, exec_block_streaming hlife n, State.runBlock_of_primed hprimed hn⟩

/-! ## The hop cadence (R173) -/

/-- A primed state of build `b` that has taken `j` blocks of `n` samples since the last firing. -/
structure SinceFiring (b : Build) (n : Half) (j : Nat) (s : State) : Prop where
  build : s.build = b
  life : s.life = .streaming
  fits : n.toNat ≤ s.maxblk.toNat
  primed : b.cap < s.hist.toNat
  hopcnt : s.hopcnt.toNat = j * n.toNat

namespace SinceFiring

variable {b : Build} {n : Half} {j : Nat} {s : State}

theorem fired_iff (h : SinceFiring b n j s) :
    (s.runBlock n).fired = true ↔ b.hop ≤ (j + 1) * n.toNat := by
  obtain ⟨rfl, -, hfits, hprimed, hhopcnt⟩ := h
  rw [(State.runBlock_of_primed hprimed hfits).1, hhopcnt, Nat.succ_mul]

/-- One more block: the count starts again where the block fires. -/
theorem runBlock (h : SinceFiring b n j s) :
    SinceFiring b n (if b.hop ≤ (j + 1) * n.toNat then 0 else j + 1) (s.runBlock n) := by
  obtain ⟨rfl, hlife, hfits, hprimed, hhopcnt⟩ := h
  have hframe := State.runBlock_frame hfits
  refine ⟨by rw [hframe], by rw [hframe]; exact hlife, by rw [hframe]; exact hfits, ?_, ?_⟩
  · rw [State.runBlock_hist_toNat hfits]
    omega
  · rw [(State.runBlock_of_primed hprimed hfits).2, hhopcnt, Nat.succ_mul]
    split
    · rw [Nat.zero_mul]
    · rw [Nat.succ_mul]

end SinceFiring

/-- Counting modulo `q`: the count starts again when it would reach `q`. -/
theorem succ_mod_eq_ite {q : Nat} (hq : 0 < q) (k : Nat) :
    (k + 1) % q = if q ≤ k % q + 1 then 0 else k % q + 1 := by
  have hlt := Nat.mod_lt k hq
  rw [← Nat.mod_add_mod]
  split
  case isTrue hle => rw [show k % q + 1 = q by omega, Nat.mod_self]
  case isFalse hle => exact Nat.mod_eq_of_lt (not_le.1 hle)

theorem dvd_succ_iff {q : Nat} (hq : 0 < q) (k : Nat) : q ∣ k + 1 ↔ q ≤ k % q + 1 := by
  rw [Nat.dvd_iff_mod_eq_zero, succ_mod_eq_ite hq]
  split <;> simp [*]

/-- The blocks since the last firing are counted modulo ceil(HOP/N). -/
theorem SinceFiring.afterBlocks {b : Build} {n : Half} {s : State} (hs : SinceFiring b n 0 s)
    {q : Nat} (hq : 0 < q) (hceil : ∀ j, q ≤ j ↔ b.hop ≤ j * n.toNat) (k : Nat) :
    SinceFiring b n (k % q) (s.afterBlocks n k) := by
  induction k with
  | zero => exact (Nat.zero_mod q).symm ▸ hs
  | succ k ih =>
    rw [succ_mod_eq_ite hq]
    simp only [hceil]
    exact ih.runBlock

/-- Settles O32: block k + 1 comes k mod ceil(HOP/N) blocks after a firing, and fires if that makes
ceil(HOP/N) of them. -/
theorem hopCadence : Obligations.HopCadence := by
  intro s n _ hlife hprimed hhopcnt hpos hn k
  obtain ⟨q, hqdef⟩ : ∃ q, (s.build.hop + n.toNat - 1) / n.toNat = q := ⟨_, rfl⟩
  have hceil (j : Nat) : q ≤ j ↔ s.build.hop ≤ j * n.toNat := by
    rw [← hqdef, ← Nat.ceilDiv_eq_add_pred_div, ceilDiv_le_iff_le_mul hpos, Nat.mul_comm]
  have hq : 0 < q := by
    have hhop := hop_pos s.build
    by_contra hzero
    have := (hceil 0).1 (not_lt.1 hzero)
    omega
  have hstart : SinceFiring s.build n 0 s := ⟨rfl, hlife, hn, hprimed, by simp [hhopcnt]⟩
  have hk := hstart.afterBlocks hq hceil k
  refine ⟨exec_block_streaming hk.life n, ?_⟩
  rw [hqdef, dvd_succ_iff hq, hceil]
  exact hk.fired_iff

/-! ## The cold start (R172) -/

/-- The invariants hold in every state since a SETUP that was let through. -/
theorem inv_of_ingested {s : State} {k : Nat} (h : Ingested s k) : Inv s := by
  induction h with
  | @setup s _ _ maxblk haccepts hexec =>
    rw [exec_setup_of_accepts haccepts] at hexec
    cases hexec
    refine inv_acceptSetup ?_
    simp only [acceptsSetup, badBlkmax, Bool.and_eq_true, Bool.not_eq_true', Bool.or_eq_false_iff,
      decide_eq_false_iff_not, not_lt] at haccepts
    obtain ⟨-, -, hiod⟩ := haccepts
    exact hiod
  | block _ _ hexec ih => exact ih.of_effect (effect_of_exec hexec)
  | quiet _ _ hexec ih => exact ih.of_effect (effect_of_exec hexec)
  | ringWrite _ hexec ih => exact ih.of_effect (effect_of_exec hexec)
  | take rest _ ih => exact ih.take rest

/-- Settles O36: HIST counts the samples (`hist_of_ingested`), and until it exceeds C, HOPCNT equals it
(10_state.md R53 c), so that a total above C >= HOP meets both halves of the guard. -/
theorem coldStartNeverFires : Obligations.ColdStartNeverFires := by
  intro s k n t hingested haccepts hexec
  obtain ⟨hlife, hn⟩ := (acceptsBlock_iff s n).1 haccepts
  cases (exec_block_streaming hlife n).symm.trans hexec
  have hhist := hist_of_ingested hingested
  refine ⟨hhist, fun hcold => ?_, fun hunprimed hcrossed => ?_⟩
  · rw [Bool.eq_false_iff]
    intro hfired
    obtain ⟨-, hprimed⟩ := (State.runBlock_fired_iff hn).1 hfired
    omega
  · have hhopcnt : s.hopcnt = s.hist := (inv_of_ingested hingested).unprimed hlife (by omega)
    have hhop := hop_le_cap s.build
    refine (State.runBlock_fired_iff hn).2 ⟨?_, by omega⟩
    rw [hhopcnt]
    omega

end Sys2Proof.Machine
end

section
/-!
The host lifecycle commands (44_host_commands.md): NOP, SETUP, TEARDOWN and CLRERR, from what the LIFE
check lets through and from the error bits of a rejected SETUP.
-/

namespace Sys2Proof.Machine

open Sys2Proof

/-! ## The LIFE check, one way and the other (60_exceptions.md R233) -/

theorem State.issue_of_allowed {s : State} {op : Op} (h : allowed op s.life = true)
    (f : State → State) : s.issue op f = f s := if_pos h

theorem State.issue_of_refused {s : State} {op : Op} (h : ¬ allowed op s.life = true)
    (f : State → State) : s.issue op f = s.raise .state := if_neg h

/-- ERR_STATE is bit 1 of the error bits (60_exceptions.md R232). -/
theorem State.raise_state_eq (s : State) : s.raise .state = { s with errs := s.errs ||| 2 } := rfl

/-- Outside STREAMING the LIFE check refuses BLOCK. -/
theorem exec_block_of_not_streaming {s : State} (hlife : s.life ≠ .streaming) (n : Half) :
    exec (.block n) s = .next (s.raise .state) :=
  congrArg _ (State.issue_of_refused (mt (allowed_block_iff _).1 hlife) _)

/-- The LIFE check of a RING command on an existing channel (60_exceptions.md R234). -/
theorem State.issueRing_of_not_allowed {s : State} {op : Op} {ch : Nat} (hch : ch < s.build.nch)
    (h : ¬ allowed op s.life = true) (f : State → State) : s.issueRing op ch f = s.raise .state :=
  (if_pos hch).trans (State.issue_of_refused h f)

theorem exec_ringWrite_of_not_streaming {s : State} {ch : Nat} (hlife : s.life ≠ .streaming)
    (hch : ch < s.build.nch) (pos : Half) : exec (.ringWrite ch pos) s = .next (s.raise .state) :=
  congrArg _ (State.issueRing_of_not_allowed hch (mt (allowed_ringWrite_iff _).1 hlife) _)

theorem exec_ringRead_of_not_streaming {s : State} {ch : Nat} (hlife : s.life ≠ .streaming)
    (hch : ch < s.build.nch) (pos : Half) : exec (.ringRead ch pos) s = .next (s.raise .state) :=
  congrArg _ (State.issueRing_of_not_allowed hch (mt (allowed_ringRead_iff _).1 hlife) _)

/-! ## The configuration checks (R192) -/

theorem badChan_iff (b : Build) (nch : Nat) : badChan b nch = true ↔ nch ≠ b.nch := by
  simp [badChan]

theorem badBlkmax_iff (b : Build) (maxblk : Half) :
    badBlkmax b maxblk = true ↔ maxblk.toNat = 0 ∨ b.iod < maxblk.toNat := by
  simp [badBlkmax]

/-- A SETUP is let through outside STREAMING when both configuration checks pass. -/
theorem acceptsSetup_iff (s : State) (nch : Nat) (maxblk : Half) :
    acceptsSetup s nch maxblk = true ↔
      s.life ≠ .streaming ∧ nch = s.build.nch ∧ 1 ≤ maxblk.toNat ∧ maxblk.toNat ≤ s.build.iod := by
  simp only [acceptsSetup, Bool.and_eq_true, Bool.not_eq_true', Bool.eq_false_iff, ne_eq, badChan_iff,
    badBlkmax_iff, allowed_setup_iff, not_not, not_or, not_lt, and_assoc, Nat.one_le_iff_ne_zero]

/-- Outside STREAMING, a SETUP that fails a configuration check is rejected. -/
theorem exec_setup_of_bad_config {s : State} {nch : Nat} {maxblk : Half} (hlife : s.life ≠ .streaming)
    (hbad : badChan s.build nch = true ∨ badBlkmax s.build maxblk = true) :
    exec (.setup nch maxblk) s =
      .next (s.rejectSetup (badChan s.build nch) (badBlkmax s.build maxblk)) := by
  have hissue := State.issue_of_allowed ((allowed_setup_iff _).2 hlife) fun t => t.runSetup nch maxblk
  exact congrArg _ (hissue.trans (if_pos (Bool.or_eq_true_iff.2 hbad)))

/-! ## The error bits -/

theorem State.hasErr_raiseIf (s : State) (c : Bool) (e f : Err) :
    (s.raiseIf c e).hasErr f = (s.hasErr f || (c && decide (f = e))) := by
  cases c with
  | false => simp [State.raiseIf]
  | true => simp [State.raiseIf, State.hasErr_raise]

theorem State.hasErr_rejectSetup (s : State) (chan blkmax : Bool) (e : Err) :
    (s.rejectSetup chan blkmax).hasErr e =
      (s.hasErr e || (chan && decide (e = .cfgChan)) || (blkmax && decide (e = .cfgBlkmax))) := by
  rw [← State.hasErr_raiseIf, ← State.hasErr_raiseIf]
  rfl

/-- A rejected SETUP writes LIFE and the error bits only (R192). -/
theorem State.rejectSetup_eq (s : State) (chan blkmax : Bool) :
    s.rejectSetup chan blkmax =
      { s with life := .cfgerr, errs := (s.rejectSetup chan blkmax).errs } := by
  cases chan <;> cases blkmax <;> rfl

/-- Clearing the error bits clears STATUS[13:8] and leaves its other fields (R196): the mask is ones in
every field of STATUS but that one. -/
theorem statusWord_clear_errs (s : State) :
    ({ s with errs := 0 } : State).statusWord = s.statusWord &&& 0xFFFFC0FF := by
  have hfields :
      (0#18 ++ s.errs ++ 0#4 ++ BitVec.ofBool s.primed ++ BitVec.ofBool s.fired ++ s.life.code) &&&
        (BitVec.allOnes 18 ++ 0#6 ++ BitVec.allOnes 4 ++ BitVec.allOnes 1 ++ BitVec.allOnes 1 ++
          BitVec.allOnes 2) =
      0#18 ++ 0#6 ++ 0#4 ++ BitVec.ofBool s.primed ++ BitVec.ofBool s.fired ++ s.life.code := by
    simp only [BitVec.and_append, BitVec.and_allOnes, BitVec.and_zero]
  exact hfields.symm

/-! ## The commands -/

/-- Settles O14: a SETUP that passes both checks is let through, and every array is then filled with
zeros. -/
theorem setupClearsAndStreams : Obligations.SetupClearsAndStreams := by
  intro s nch maxblk hlife hnch hpos hiod
  have haccepts := (acceptsSetup_iff s nch maxblk).2 ⟨hlife, hnch, hpos, hiod⟩
  refine ⟨s.acceptSetup maxblk, exec_setup_of_accepts haccepts, rfl, fun a ch k => ?_⟩
  rw [State.peek, State.acceptSetup_arr, Memory.get_filled]

/-- Settles O15: the error bits by `State.hasErr_rejectSetup`, and the refusals from LIFE being CFGERR. -/
theorem setupRejectedIsCfgerr : Obligations.SetupRejectedIsCfgerr := by
  intro s nch maxblk hlife hbad
  rw [← badBlkmax_iff, ← badChan_iff] at hbad
  refine ⟨_, exec_setup_of_bad_config hlife hbad, s.rejectSetup_eq _ _, ?chan, ?blkmax,
    fun e hchan hblkmax => ?other, exec_block_of_not_streaming (by simp), fun ch pos hch => ?ring⟩
  case chan => simp [State.hasErr_rejectSetup, badChan_iff]
  case blkmax => simp [State.hasErr_rejectSetup, badBlkmax_iff]
  case other => simp [State.hasErr_rejectSetup, hchan, hblkmax]
  case ring =>
    exact ⟨exec_ringWrite_of_not_streaming (by simp) (by simpa using hch) pos,
      exec_ringRead_of_not_streaming (by simp) (by simpa using hch) pos⟩

/-- Settles O13: the LIFE check lets NOP through everywhere. -/
theorem nopChangesNothing : Obligations.NopChangesNothing := fun s =>
  congrArg Host.Outcome.next (State.issue_of_allowed (allowed_nop s.life) _)

/-- Settles O16: in STREAMING the LIFE check refuses SETUP. -/
theorem setupWhileStreamingIsRefused : Obligations.SetupWhileStreamingIsRefused := by
  intro s nch maxblk hlife
  rw [← State.raise_state_eq]
  exact congrArg _ (State.issue_of_refused (fun h => (allowed_setup_iff _).1 h hlife) _)

/-- Settles O17: the LIFE check lets TEARDOWN through everywhere. -/
theorem teardownGoesIdle : Obligations.TeardownGoesIdle := fun s =>
  congrArg Host.Outcome.next (State.issue_of_allowed (allowed_teardown s.life) _)

/-- Settles O18: the LIFE check lets CLRERR through everywhere, and STATUS loses its error field. -/
theorem clrerrClearsErrors : Obligations.ClrerrClearsErrors := fun s =>
  ⟨{ s with errs := 0 }, congrArg Host.Outcome.next (State.issue_of_allowed (allowed_clrerr s.life) _), rfl,
    statusWord_clear_errs s, fun _ => BitVec.getLsbD_zero⟩

end Sys2Proof.Machine
end

section
/-!
Errors (60_exceptions.md): every instruction and every step ends in a next state (R230), a command has one
of four outcomes (`CommandOutcome`; R231, R233, R234), and only CLRERR and the reset clear an error bit
(R236).
-/

namespace Sys2Proof.Machine

open Sys2Proof

/-! ## Every step completes (R230, R250) -/

/-- Settles O9: a step takes an event only if the host has one pending. -/
theorem idleStepHoldsState : Obligations.IdleStepHoldsState := by
  intro s hidle
  unfold step
  rw [hidle]

theorem exec_completes (i : Instr) (s : State) : ∃ t, exec i s = .next t := by
  obtain ⟨t, ht, -⟩ := exec_effect i s
  exact ⟨t, ht⟩

/-- Settles O10: a step holds the state, runs an instruction, or resets. -/
theorem everyStepCompletes : Obligations.EveryStepCompletes := by
  refine ⟨exec_completes, fun s => ?_⟩
  rcases step_cases s with ⟨-, hs⟩ | ⟨t, rest, -, hs⟩ | ⟨rest, -, hs⟩ <;> rw [hs]
  · exact ⟨_, rfl⟩
  · exact exec_completes _ _
  · exact ⟨_, rfl⟩

/-! ## The error bits of each operation (R232) -/

/-- ERR_BLKLEN is bit 2 of the error bits (60_exceptions.md R232). -/
theorem State.raise_blklen_eq (s : State) : s.raise .blklen = { s with errs := s.errs ||| 4 } := rfl

/-- From no error bit set, raising an error leaves its own bit. -/
theorem State.raise_errs_of_clean {s : State} (h : s.errs = 0) (e : Err) :
    (s.raise e).errs = 1#6 <<< e.bit := by
  rw [State.raise_errs, h]
  exact BitVec.zero_or

/-- A rejected SETUP raises ERR_CFG_CHAN and ERR_CFG_BLKMAX, bits 4 and 5, each if its check fails
(44_host_commands.md R192). -/
theorem State.rejectSetup_errs (s : State) (chan blkmax : Bool) :
    (s.rejectSetup chan blkmax).errs =
      s.errs ||| (if chan = true then 16 else 0) ||| (if blkmax = true then 32 else 0) := by
  cases chan <;> cases blkmax <;> simp [State.rejectSetup, State.raiseIf, Err.bit]

/-- A BLOCK that runs raises nothing. -/
theorem State.block_errs (s : State) (n : Nat) :
    ((s.ingest n).advance n).finishBlock.errs = s.errs := by
  obtain ⟨u, hu⟩ := s.block_frame n
  rw [hu]

/-! ## The outcomes of a command (R231, R233, R234) -/

/-- What performing a legal command can come to: the LIFE check refuses it, the command's own check fails,
or it runs, and then raises nothing. -/
inductive CommandOutcome (s : State) (d : Command) : State → Prop where
  | refused (hrefused : allowed d.op s.life = false) : CommandOutcome s d (s.raise .state)
  | tooLong (hallowed : allowed d.op s.life = true) (hop : d.op = .block)
      (hlong : s.maxblk.toNat < d.imm.toNat) :
      CommandOutcome s d (s.raise .blklen)
  | rejected (hallowed : allowed d.op s.life = true) (hop : d.op = .setup)
      (hbad : badChan s.build (d.ch.toNat + 1) = true ∨ badBlkmax s.build d.imm = true) :
      CommandOutcome s d
        (s.rejectSetup (badChan s.build (d.ch.toNat + 1)) (badBlkmax s.build d.imm))
  | ran (hallowed : allowed d.op s.life = true)
      (hfits : d.op = .block → ¬ s.maxblk.toNat < d.imm.toNat)
      (hgood : d.op = .setup →
        ¬ (badChan s.build (d.ch.toNat + 1) = true ∨ badBlkmax s.build d.imm = true))
      (t : State) (herrs : t.errs = if d.op = .clrerr then 0 else s.errs) : CommandOutcome s d t

/-- The table of R233, by its refusals. -/
theorem allowed_eq_false_iff (op : Op) (l : Life) :
    allowed op l = false ↔
      op = .setup ∧ l = .streaming ∨
        (op = .block ∨ op = .ringWrite ∨ op = .ringRead) ∧ l ≠ .streaming := by
  rw [Bool.eq_false_iff]
  cases op with
  | nop | teardown | clrerr => simp
  | setup => simp [allowed_setup_iff]
  | block => simp [allowed_block_iff]
  | ringWrite => simp [allowed_ringWrite_iff]
  | ringRead => simp [allowed_ringRead_iff]

section Commands

variable {s : State} {d : Command}

/-- A command that the LIFE check refuses only raises ERR_STATE. -/
theorem exec_toInstr_of_refused
    (hch : d.op = .ringWrite ∨ d.op = .ringRead → d.ch.toNat < s.build.nch)
    (h : allowed d.op s.life = false) : exec d.toInstr s = .next (s.raise .state) := by
  obtain ⟨op, ch, imm⟩ := d
  have hrefused := Bool.eq_false_iff.1 h
  cases op with
  | nop | teardown | clrerr => simp at h
  | setup | block => exact congrArg _ (State.issue_of_refused hrefused _)
  | ringWrite | ringRead =>
    exact congrArg _ (State.issueRing_of_not_allowed (hch (by simp)) hrefused _)

/-- A command that the LIFE check lets through meets its own check, if it has one (R161, R192). -/
theorem commandOutcome_of_allowed
    (hch : d.op = .ringWrite ∨ d.op = .ringRead → d.ch.toNat < s.build.nch)
    (h : allowed d.op s.life = true) :
    ∃ t, exec d.toInstr s = .next t ∧ CommandOutcome s d t := by
  obtain ⟨op, ch, imm⟩ := d
  cases op with
  | nop | teardown | clrerr =>
    exact ⟨_, congrArg Host.Outcome.next (State.issue_of_allowed h _), .ran h nofun nofun _ rfl⟩
  | setup =>
    by_cases hbad : badChan s.build (ch.toNat + 1) = true ∨ badBlkmax s.build imm = true
    · exact ⟨_, exec_setup_of_bad_config ((allowed_setup_iff _).1 h) hbad, .rejected h rfl hbad⟩
    · have haccepts : acceptsSetup s (ch.toNat + 1) imm = true := by
        simpa [acceptsSetup, show allowed .setup s.life = true from h] using hbad
      exact ⟨_, exec_setup_of_accepts haccepts, .ran h nofun (fun _ => hbad) _ rfl⟩
  | block =>
    refine ⟨_, exec_block_streaming ((allowed_block_iff _).1 h) imm, ?_⟩
    rcases s.runBlock_cases imm with ⟨hlong, hrun⟩ | ⟨hfits, hrun⟩ <;> rw [hrun]
    · exact .tooLong h rfl hlong
    · exact .ran h (fun _ => not_lt.2 hfits) nofun _ (s.block_errs _)
  | ringWrite =>
    exact ⟨_, exec_ringWrite_streaming ((allowed_ringWrite_iff _).1 h) (hch (by simp)) imm,
      .ran h nofun nofun _ rfl⟩
  | ringRead =>
    exact ⟨_, exec_ringRead_streaming ((allowed_ringRead_iff _).1 h) (hch (by simp)) imm,
      .ran h nofun nofun _ rfl⟩

/-- A command with a legal word has one of the outcomes. -/
theorem exec_commandOutcome
    (hch : d.op = .ringWrite ∨ d.op = .ringRead → d.ch.toNat < s.build.nch) :
    ∃ t, exec d.toInstr s = .next t ∧ CommandOutcome s d t := by
  cases h : allowed d.op s.life with
  | false => exact ⟨_, exec_toInstr_of_refused hch h, .refused h⟩
  | true => exact commandOutcome_of_allowed hch h

/-- A command that the LIFE check lets through does not raise ERR_STATE. -/
theorem CommandOutcome.hasErr_state {t : State} (h : CommandOutcome s d t)
    (hallowed : allowed d.op s.life = true) (hset : t.hasErr .state = true) :
    s.hasErr .state = true := by
  cases h with
  | refused hrefused => simp [hallowed] at hrefused
  | tooLong => simpa [State.hasErr_raise] using hset
  | rejected => simpa [State.hasErr_rejectSetup] using hset
  | ran _ _ _ _ herrs =>
    rw [State.hasErr, herrs] at hset
    split at hset
    · simp at hset
    · exact hset

end Commands

/-- Settles O48: the refusals are the table's (`allowed_eq_false_iff`), and no outcome of a command that
is let through raises ERR_STATE. -/
theorem lifeCheck : Obligations.LifeCheck := by
  intro s d hch
  simp only [← allowed_eq_false_iff]
  split
  case isTrue hrefused => exact ⟨_, exec_toInstr_of_refused hch hrefused, s.raise_state_eq⟩
  case isFalse hallowed =>
    obtain ⟨t, ht, hout⟩ := exec_commandOutcome hch
    exact ⟨t, ht, hout.hasErr_state (Bool.not_eq_false _ ▸ hallowed)⟩

/-- What writing a word to CMD can come to: ERR_ILLEGAL alone, or an outcome of its command. -/
theorem exec_busWr_cmd_outcome (s : State) (w : Word) :
    ∃ t, exec (.busWr cmdAddr w) s = .next t ∧
      ((∃ e, decodeCmd s.build w = .error e) ∧ t = s.raise .illegal ∨
        ∃ d, decodeCmd s.build w = .ok d ∧ CommandOutcome s d t) := by
  rw [exec_busWr_cmd]
  rcases executeCommand_cases w s with ⟨hd, he⟩ | ⟨d, hd, he⟩ <;> rw [he]
  · exact ⟨_, rfl, .inl ⟨hd, rfl⟩⟩
  · obtain ⟨-, hlegal⟩ := (decodeCmd_eq_ok_iff s.build w d).1 hd
    obtain ⟨t, ht, hout⟩ := exec_commandOutcome (s := s) hlegal.channel
    exact ⟨t, ht, .inr ⟨d, hd, hout⟩⟩

/-- Settles O50, outcome by outcome. -/
theorem failedCommandsArePrecise : Obligations.FailedCommandsArePrecise := by
  intro s w
  simp only [← badChan_iff, ← badBlkmax_iff]
  obtain ⟨t, ht, ⟨⟨e, hd⟩, rfl⟩ | ⟨d, hd, hout⟩⟩ := exec_busWr_cmd_outcome s w <;>
    refine ⟨_, ht, ?_⟩ <;> rw [hd]
  · exact raise_illegal s
  cases hout with
  | refused hrefused => exact (if_pos hrefused).mpr s.raise_state_eq
  | tooLong hallowed hop hlong =>
    dsimp only
    rw [if_neg (ne_false_of_eq_true hallowed), if_pos ⟨hop, hlong⟩]
    exact s.raise_blklen_eq
  | rejected hallowed hop hbad =>
    have hblock : d.op ≠ .block := by simp [hop]
    dsimp only
    rw [if_neg (ne_false_of_eq_true hallowed), if_neg (not_and_of_not_left _ hblock),
      if_pos ⟨hop, hbad⟩, State.rejectSetup_eq, State.rejectSetup_errs]
  | ran hallowed hfits hgood _ herrs =>
    dsimp only
    rw [if_neg (ne_false_of_eq_true hallowed), if_neg (not_and.2 hfits), if_neg (not_and.2 hgood)]
    exact herrs

/-- Settles O49: from no error bit set, the bits are those of the one outcome. -/
theorem oneErrorClass : Obligations.OneErrorClass := by
  intro s w hclean
  simp only [← badChan_iff, ← badBlkmax_iff]
  obtain ⟨t, ht, ⟨⟨e, hd⟩, rfl⟩ | ⟨d, hd, hout⟩⟩ := exec_busWr_cmd_outcome s w <;>
    refine ⟨_, ht, ?_⟩ <;> rw [hd]
  · exact State.raise_errs_of_clean hclean .illegal
  cases hout with
  | refused hrefused => exact (if_pos hrefused).mpr (State.raise_errs_of_clean hclean .state)
  | tooLong hallowed hop hlong =>
    dsimp only
    rw [if_neg (ne_false_of_eq_true hallowed), if_pos hop, if_pos hlong]
    exact State.raise_errs_of_clean hclean .blklen
  | rejected hallowed hop hbad =>
    have hblock : d.op ≠ .block := by simp [hop]
    dsimp only
    rw [if_neg (ne_false_of_eq_true hallowed), if_neg hblock, if_pos hop, State.rejectSetup_errs, hclean]
    exact congrArg (· ||| _) BitVec.zero_or
  | ran hallowed hfits hgood _ herrs =>
    have hnone : t.errs = 0 := by rw [herrs, hclean, ite_self]
    dsimp only
    rw [if_neg (ne_false_of_eq_true hallowed), hnone]
    split
    case isTrue hblock => rw [if_neg (hfits hblock)]
    case isFalse =>
      split
      case isTrue hsetup =>
        obtain ⟨hchan, hblkmax⟩ := not_or.1 (hgood hsetup)
        rw [if_neg hchan, if_neg hblkmax]
        rfl
      case isFalse => rfl

/-! ## Errors accumulate (R236) -/

/-- Only CLRERR clears an error bit. -/
theorem Effect.hasErr_of_hasErr {op : Option Op} {s t : State} (h : Effect op s t)
    (hop : op ≠ some .clrerr) {e : Err} (he : s.hasErr e = true) : t.hasErr e = true := by
  cases h with
  | clrerr => exact absurd rfl hop
  | refused | blockTooLong | illegalWord | busError => simp [State.hasErr_raise, he]
  | answerError => exact (s.hasErr_raise .bus e).trans (by simp [he])
  | setupRejected => simp [State.hasErr_rejectSetup, he]
  | block => simpa [State.hasErr, State.block_errs] using he
  | _ => exact he

/-- The word of CLRERR is the only one that decodes to it (30_encoding.md R94). -/
theorem eq_of_decodeCmd_clrerr {b : Build} {w : Word} {d : Command} (hd : decodeCmd b w = .ok d)
    (hop : d.op = .clrerr) : w = 0x60000000 := by
  obtain ⟨op, ch, imm⟩ := d
  obtain rfl : op = .clrerr := hop
  obtain ⟨hw, hch, himm, -⟩ := (decodeCmd_eq_ok_iff b w _).1 hd
  obtain rfl : ch = 0 := hch rfl
  obtain rfl : imm = 0 := himm rfl
  exact hw

/-- A write to CMD is the transaction of the command word that it writes (30_encoding.md R90, R100). -/
theorem eq_toTxn_of_write_cmd {txn : Txn} (hwe : txn.we = true) (haddr : txn.addr = cmdAddr) :
    txn = (Encoding.cmd32 txn.data).toTxn := by
  obtain ⟨header, data⟩ := txn
  have hheader := header_fields header
  rw [show header.getLsbD 32 = true from hwe,
    show header.extractLsb' 0 32 = cmdAddr from haddr] at hheader
  rw [← hheader]
  rfl

/-- The only transaction that performs CLRERR is the write of its word to CMD. -/
theorem eq_of_commandOp_clrerr {b : Build} {txn : Txn}
    (h : commandOp b (decodeTxn txn) = some .clrerr) : txn = (Encoding.cmd32 0x60000000).toTxn := by
  unfold decodeTxn at h
  cases hwe : txn.we with
  | false => simp [hwe, commandOp] at h
  | true =>
    simp only [hwe, if_true, commandOp, decodeAddr_eq_cmd_iff] at h
    split at h
    case isFalse => cases h
    case isTrue haddr =>
      cases hd : decodeCmd b txn.data with
      | error e => simp [hd] at h
      | ok d =>
        have hop : d.op = .clrerr := by simpa [hd] using h
        rw [eq_toTxn_of_write_cmd hwe haddr, eq_of_decodeCmd_clrerr hd hop]

/-- Settles O51: a step that is neither a reset nor CLRERR has an effect that clears no error bit. -/
theorem errorsAreSticky : Obligations.ErrorsAreSticky := by
  intro s t e hstep he hreset hclrerr
  rcases step_cases s with ⟨-, hs⟩ | ⟨txn, rest, hp, hs⟩ | ⟨rest, hp, -⟩
  · rw [hs] at hstep
    cases hstep
    exact he
  · rw [hs] at hstep
    refine (effect_of_exec hstep).hasErr_of_hasErr (fun hop => hclrerr ?_) he
    rw [hp, eq_of_commandOp_clrerr hop]
    rfl
  · exact absurd (by rw [hp]; rfl) hreset

end Sys2Proof.Machine
end

section
/-!
Reset and the well-behaved host (70_reset_and_hazards.md): what every register and storage word reads as
after a reset (R260, R261), and why a host that keeps to the rules of R263 never sees an error bit (R264).
-/

namespace Sys2Proof.Machine

open Sys2Proof

/-! ## The registers and the storage after a reset (R260, R261) -/

/-- With HIST at 0 the block is not primed, on any build (10_state.md R27). -/
@[simp] theorem State.primed_resetOf (b : Build) : (State.resetOf b).primed = false :=
  decide_eq_false (Nat.not_lt_zero _)

/-- STATUS is 0 after reset: no error, not primed, not fired, IDLE. -/
theorem statusWord_resetOf (b : Build) : (State.resetOf b).statusWord = 0 := by
  rw [State.statusWord, State.primed_resetOf]
  show 0#18 ++ 0#6 ++ 0#4 ++ 0#1 ++ 0#1 ++ 0#2 = 0#32
  decide

/-- The constants keep their words after reset, and every other register reads 0. -/
theorem readCsr_resetOf (b : Build) (r : Csr) :
    (State.resetOf b).readCsr r =
      if r = .id then 0x5A4C0007 else if r = .param then paramWord b
      else if r = .param2 then param2Word b else 0 := by
  cases r with
  | status => exact statusWord_resetOf b
  | wp => exact congrArg (BitVec.ofNat 32) (Nat.zero_and _)
  | maxblk => exact (by decide : 0#16 ++ (0 : Half) = 0#32)
  | _ => rfl

@[simp] theorem State.resetOf_arr (b : Build) (a : Arr) : (State.resetOf b).arr a = Memory.unspecified := by
  cases a <;> rfl

/-- The reset input leaves the registers of the build's reset state. -/
theorem readCsr_resetNow (s : State) (r : Csr) :
    s.resetNow.readCsr r = (State.resetOf s.build).readCsr r := by
  cases r <;> rfl

theorem step_of_reset {s : State} {rest : List Event} (h : s.pending = .reset :: rest) :
    step s = .next (s.take rest).resetNow := by
  unfold step
  rw [h]

/-- Settles O12: the registers one by one, and empty storage arrays. -/
theorem resetStateReadsAsGiven : Obligations.ResetStateReadsAsGiven := by
  refine ⟨readCsr_resetOf, fun b a ch k => ?_, parameterRegisters.2 State.reset rfl⟩
  rw [State.peek, State.resetOf_arr, Memory.get_unspecified]

/-- Settles O11: the registers are those of the reset state of the block's own build. -/
theorem resetInputResets : Obligations.ResetInputResets := by
  intro s rest hp
  have hread (r : Csr) := (readCsr_resetNow (s.take rest) r).trans (readCsr_resetOf s.build r)
  refine ⟨_, step_of_reset hp, rfl, rfl, rfl, hread .id, hread .param, hread .param2,
    fun r hid hparam hparam2 => ?others, rfl, rfl, State.primed_resetOf s.build, rfl,
    fun a ch k => ?storage⟩
  case others => rw [hread, if_neg hid, if_neg hparam, if_neg hparam2]
  case storage => rw [State.peek, State.resetNow_arr, Memory.get_unspecified]

/-! ## What a well-behaved host may do (R263, R264) -/

/-- A readable address selects a register or a window word. -/
theorem target_of_readable {b : Build} {addr : Word} (h : readable b addr = true) :
    (∃ r, decodeAddr b addr = .csr r) ∨ ∃ w ch idx, decodeAddr b addr = .win w ch idx := by
  unfold readable at h
  cases hd : decodeAddr b addr with
  | csr r => exact .inl ⟨r, rfl⟩
  | win w ch idx => exact .inr ⟨w, ch, idx, rfl⟩
  | misaligned | unmapped => simp [hd] at h

/-- A writable address is CMD with a well-behaved command, ARG, or an IO word. -/
theorem target_of_writable {s : State} {addr v : Word} (h : writable s addr v = true) :
    addr = cmdAddr ∧ wellBehavedCmd s v = true ∨ decodeAddr s.build addr = .csr .arg ∨
      ∃ ch idx, decodeAddr s.build addr = .win .io ch idx := by
  unfold writable at h
  cases hd : decodeAddr s.build addr with
  | misaligned | unmapped => simp [hd] at h
  | csr r =>
    by_cases hcmd : r = .cmd
    · subst hcmd
      exact .inl ⟨(decodeAddr_eq_cmd_iff _ _).1 hd, by simpa [hd] using h⟩
    · have harg : r = .arg := by simpa [hd, hcmd] using h
      exact .inr (.inl (congrArg Target.csr harg))
  | win w ch idx =>
    have hio : w = .io := by simpa [hd] using h
    exact .inr (.inr ⟨ch, idx, by rw [hio]⟩)

/-- A well-behaved command word decodes to a command that the LIFE check lets through and that is within
its limits. -/
theorem command_of_wellBehavedCmd {s : State} {w : Word} (h : wellBehavedCmd s w = true) :
    ∃ d, decodeCmd s.build w = .ok d ∧ allowed d.op s.life = true ∧ withinLimits s d = true := by
  unfold wellBehavedCmd at h
  cases hd : decodeCmd s.build w with
  | error e => simp [hd] at h
  | ok d => exact ⟨d, rfl, by simpa [hd] using h⟩

/-- The limit of a BLOCK is MAXBLK (43_block_scheduler.md R161). -/
theorem withinLimits_block {s : State} {d : Command} (hop : d.op = .block) :
    withinLimits s d = true ↔ d.imm.toNat ≤ s.maxblk.toNat := by
  simp [withinLimits, hop]

/-- The limits of a SETUP are its configuration checks (44_host_commands.md R192). -/
theorem withinLimits_setup {s : State} {d : Command} (hop : d.op = .setup) :
    withinLimits s d = true ↔
      ¬ (badChan s.build (d.ch.toNat + 1) = true ∨ badBlkmax s.build d.imm = true) := by
  simp [withinLimits, hop]

/-! ## A well-behaved event raises nothing -/

/-- A command that is let through within its limits runs, so it raises nothing. -/
theorem CommandOutcome.errorFree {s t : State} {d : Command} (h : CommandOutcome s d t)
    (hclean : ErrorFree s) (hallowed : allowed d.op s.life = true) (hlimits : withinLimits s d = true) :
    ErrorFree t := by
  cases h with
  | refused hrefused => exact absurd hallowed (ne_true_of_eq_false hrefused)
  | tooLong _ hop hlong => exact absurd ((withinLimits_block hop).1 hlimits) (not_le.2 hlong)
  | rejected _ hop hbad => exact absurd hbad ((withinLimits_setup hop).1 hlimits)
  | ran _ _ _ _ herrs => rw [ErrorFree, herrs, hclean, ite_self]

theorem errorFree_of_busWr_cmd {s t : State} {w : Word} (hclean : ErrorFree s)
    (h : wellBehavedCmd s w = true) (hexec : exec (.busWr cmdAddr w) s = .next t) : ErrorFree t := by
  obtain ⟨d, hd, hallowed, hlimits⟩ := command_of_wellBehavedCmd h
  obtain ⟨u, hu, ⟨⟨e, he⟩, -⟩ | ⟨d', hd', hout⟩⟩ := exec_busWr_cmd_outcome s w
  · cases hd.symm.trans he
  · cases hd.symm.trans hd'
    cases hexec.symm.trans hu
    exact hout.errorFree hclean hallowed hlimits

theorem errorFree_of_busRd {s t : State} {addr : Word} (hclean : ErrorFree s)
    (h : readable s.build addr = true) (hexec : exec (.busRd addr) s = .next t) : ErrorFree t := by
  rcases target_of_readable h with ⟨r, hd⟩ | ⟨w, ch, idx, hd⟩
  · cases hexec.symm.trans (exec_busRd_csr hd)
    exact hclean
  · cases hexec.symm.trans (exec_busRd_win hd)
    exact hclean

theorem errorFree_of_busWr {s t : State} {addr v : Word} (hclean : ErrorFree s)
    (h : writable s addr v = true) (hexec : exec (.busWr addr v) s = .next t) : ErrorFree t := by
  rcases target_of_writable h with ⟨rfl, hcmd⟩ | hd | ⟨ch, idx, hd⟩
  · exact errorFree_of_busWr_cmd hclean hcmd hexec
  · cases hexec.symm.trans (exec_busWr_csr hd v)
    exact hclean
  · cases hexec.symm.trans (exec_busWr_win hd v)
    exact hclean

theorem errorFree_of_txn {s t : State} {txn : Txn} (hclean : ErrorFree s)
    (h : wellBehaved s (.txn txn) = true) (hexec : exec (decodeTxn txn) s = .next t) : ErrorFree t := by
  simp only [wellBehaved] at h
  unfold decodeTxn at hexec
  cases hwe : txn.we with
  | false =>
    rw [hwe] at h hexec
    exact errorFree_of_busRd hclean h hexec
  | true =>
    rw [hwe] at h hexec
    exact errorFree_of_busWr hclean h hexec

/-! ## Runs -/

/-- The host's next event, if there is one, is a well-behaved one. -/
def BehavesNext (s : State) : Prop := ∀ e rest, s.pending = e :: rest → wellBehaved s e = true

/-- The host is well-behaved at each of the first `k` steps from `s`. -/
def BehavesFor (k : Nat) (s : State) : Prop :=
  ∀ j u, j < k → Sys2Proof.core.run j s = .next u → BehavesNext u

/-- A well-behaved event keeps the block free of errors; taking it changes nothing that its being
well-behaved depends on. -/
theorem errorFree_of_step {s t : State} (hclean : ErrorFree s) (hnext : BehavesNext s)
    (hstep : step s = .next t) : ErrorFree t := by
  rcases step_cases s with ⟨-, hs⟩ | ⟨txn, rest, hp, hs⟩ | ⟨rest, -, hs⟩ <;> rw [hs] at hstep
  · cases hstep
    exact hclean
  · exact errorFree_of_txn (s := s.take rest) hclean (hnext _ _ hp) hstep
  · cases hstep
    rfl

theorem BehavesFor.head {k : Nat} {s : State} (h : BehavesFor (k + 1) s) : BehavesNext s :=
  h 0 s (Nat.succ_pos k) rfl

theorem BehavesFor.tail {k : Nat} {s t : State} (h : BehavesFor (k + 1) s) (hstep : step s = .next t) :
    BehavesFor k t :=
  fun j u hj hu => h (j + 1) u (Nat.succ_lt_succ hj) ((run_succ_of_step hstep j).trans hu)

/-- Along a run of a well-behaved host no error bit is ever set, by induction on the steps. -/
theorem errorFree_of_run {k : Nat} {s t : State} (hclean : ErrorFree s) (hhost : BehavesFor k s)
    (hrun : Sys2Proof.core.run k s = .next t) : ErrorFree t := by
  induction k generalizing s with
  | zero =>
    cases hrun
    exact hclean
  | succ k ih =>
    obtain ⟨u, hstep⟩ := everyStepCompletes.2 s
    exact ih (errorFree_of_step hclean hhost.head hstep) (hhost.tail hstep)
      ((run_succ_of_step hstep k).symm.trans hrun)

/-- Settles O52: `BehavesFor` is what the statement asks of the host. -/
theorem wellBehavedHostSeesNoError : Obligations.WellBehavedHostSeesNoError :=
  fun _ _ _ hclean hrun hhost =>
    errorFree_of_run hclean (fun j u hj hu e rest => hhost j u e rest hj hu) hrun

end Sys2Proof.Machine
end
